-- ==== Sys2Proof/Word.lean ====
section
/-! DEFINITION. The widths of the MCUSim core (`00_scope.md` R7): an 8-bit byte (registers, stack slots, DATA,
INPUT, OUTPUT), a 13-bit instruction word and a 6-bit Program Store address. -/

namespace Sys2Proof

/-- An 8-bit value: a register, a stack slot, the DATA field, INPUT or OUTPUT (`00_scope.md` R7). -/
abbrev Byte := BitVec 8

/-- One 13-bit instruction word, the only addressable unit of the Program Store (`30_encoding.md` R70,
`20_memory.md` R55). -/
abbrev Word := BitVec 13

/-- A 6-bit address of the Program Store, 0 to 63 (`10_state.md` R25). -/
abbrev Addr := BitVec 6

end Sys2Proof
end

