-- ==== Sys2Proof/Syntax.lean ====
section
/-! DEFINITION. The instruction set as syntax: register names, the 13 mnemonics (`30_encoding.md` R75, R81), the
instructions with their two operand fields (R71 to R73), and the six enumerated fields of a control word
(`40_control_decoder.md` R114). -/

namespace Sys2Proof

/-- The two general registers, named by DEST (`30_encoding.md` R72). -/
inductive RegName where
  | reg0
  | reg1
deriving DecidableEq, Repr

/-- The 13 mnemonics (`30_encoding.md` R81), in the order of the control-word table. -/
inductive Mnemonic where
  | call | ret | bz | b | add | sub | and | ld | out | inp | dout | xor | inXor
deriving DecidableEq, Repr

/-- An instruction: a mnemonic with the DEST and DATA fields that every word has (`00_scope.md` R15).
Fields an instruction ignores are kept, so that no bit of a word is lost (`30_encoding.md` R78; log entry 17). -/
inductive Instr where
  /-- CALL (R190): DATA is the target, DEST is ignored. -/
  | call (dest : RegName) (data : Byte)
  /-- RET (R191): both fields are ignored. -/
  | ret (dest : RegName) (data : Byte)
  /-- BZ (R192): DEST is the register tested, DATA the target. -/
  | bz (dest : RegName) (data : Byte)
  /-- B (R193): DATA is the target, DEST is ignored. -/
  | b (dest : RegName) (data : Byte)
  /-- ADD (R200). -/
  | add (dest : RegName) (data : Byte)
  /-- SUB (R201): DATA minus the register. -/
  | sub (dest : RegName) (data : Byte)
  /-- AND (R202). -/
  | and (dest : RegName) (data : Byte)
  /-- LD (R203): load immediate. -/
  | ld (dest : RegName) (data : Byte)
  /-- OUT (R210): DATA is ignored. -/
  | out (dest : RegName) (data : Byte)
  /-- IN (R211): DATA is ignored. -/
  | inp (dest : RegName) (data : Byte)
  /-- DOUT (R212): DEST is ignored. -/
  | dout (dest : RegName) (data : Byte)
  /-- XOR (R204). -/
  | xor (dest : RegName) (data : Byte)
  /-- IN_XOR (R213): DEST is only written. -/
  | inXor (dest : RegName) (data : Byte)
deriving DecidableEq, Repr

/-- The mnemonic of an instruction. -/
def Instr.mnemonic : Instr → Mnemonic
  | .call _ _ => .call
  | .ret _ _ => .ret
  | .bz _ _ => .bz
  | .b _ _ => .b
  | .add _ _ => .add
  | .sub _ _ => .sub
  | .and _ _ => .and
  | .ld _ _ => .ld
  | .out _ _ => .out
  | .inp _ _ => .inp
  | .dout _ _ => .dout
  | .xor _ _ => .xor
  | .inXor _ _ => .inXor

/-- The DEST field (`30_encoding.md` R72). -/
def Instr.dest : Instr → RegName
  | .call d _ | .ret d _ | .bz d _ | .b d _ | .add d _ | .sub d _ | .and d _ | .ld d _ | .out d _
  | .inp d _ | .dout d _ | .xor d _ | .inXor d _ => d

/-- The DATA field (`30_encoding.md` R73). -/
def Instr.data : Instr → Byte
  | .call _ x | .ret _ x | .bz _ x | .b _ x | .add _ x | .sub _ x | .and _ x | .ld _ x | .out _ x
  | .inp _ x | .dout _ x | .xor _ x | .inXor _ x => x

/-- The instruction with a given mnemonic and given fields (`30_encoding.md` R76: every mnemonic takes both). -/
def Instr.ofFields (m : Mnemonic) (d : RegName) (x : Byte) : Instr :=
  match m with
  | .call => .call d x
  | .ret => .ret d x
  | .bz => .bz d x
  | .b => .b d x
  | .add => .add d x
  | .sub => .sub d x
  | .and => .and d x
  | .ld => .ld d x
  | .out => .out d x
  | .inp => .inp d x
  | .dout => .dout d x
  | .xor => .xor d x
  | .inXor => .inXor d x

/-- Control field StackOp (`40_control_decoder.md` R114). -/
inductive StackOp where
  | hold | push | pop
deriving DecidableEq, Repr

/-- Control field AddrSrc: PC+1, DATA, TOS, DATA-if-Zero (`40_control_decoder.md` R114). -/
inductive AddrSrc where
  | pcPlus1 | data | tos | dataIfZero
deriving DecidableEq, Repr

/-- Control field ALUOp: the seven ALU operations (`40_control_decoder.md` R114, `41_alu.md` R130). -/
inductive AluOp where
  | add | sub | passA | passB | and | xor | zero
deriving DecidableEq, Repr

/-- Control field ALUSrc: what drives ALU operand B (`40_control_decoder.md` R117). -/
inductive AluSrc where
  | reg | input
deriving DecidableEq, Repr

/-- The control word as a record of six enumerated fields, as `40_control_decoder.md` R114 asks of a model. -/
structure ControlWord where
  stackOp : StackOp
  addrSrc : AddrSrc
  aluOp : AluOp
  aluSrc : AluSrc
  regWr : Bool
  outLatch : Bool
deriving DecidableEq, Repr

end Sys2Proof
end

