-- ==== Sys2Proof/Machine/Flags.lean ====
section
/-! DEFINITION. The machine's one condition, the ALU's zero output (`41_alu.md` R131 to R138): a signal of one cycle,
stored nowhere (`10_state.md` R37). For ADD and SUB it looks at the sum before truncation. -/

namespace Sys2Proof.Machine

/-- The 8-bit two's complement of an operand, `~B + 1` (`41_alu.md` R132, D6; log entry 13). -/
def twosComplement (b : Byte) : Byte := ~~~b + 1#8

/-- The zero output of each ALU operation (`41_alu.md` R131 to R137). -/
def zeroOut (op : AluOp) (a b : Byte) : Bool :=
  match op with
  | .add => a.toNat + b.toNat == 0
  | .sub => (twosComplement b).toNat + a.toNat == 0
  | .passA => a == 0#8
  | .passB => b == 0#8
  | .and => (a &&& b) == 0#8
  | .xor => (a ^^^ b) == 0#8
  | .zero => true

end Sys2Proof.Machine
end

