-- ==== Sys2Proof/Machine/Alu.lean ====
section
/-! DEFINITION. The bit-vector ALU, a pure function of its operation and two 8-bit operands (`41_alu.md` R130). -/

namespace Sys2Proof.Machine

/-- The two outputs of the ALU (`41_alu.md` R130). -/
structure AluOut where
  result : Byte
  zero : Bool
deriving DecidableEq, Repr

/-- The result output of each ALU operation (`41_alu.md` R131 to R137); sums are integers, narrowed at the end. -/
def aluResult (op : AluOp) (a b : Byte) : Byte :=
  match op with
  | .add => BitVec.ofNat 8 (a.toNat + b.toNat)
  | .sub => BitVec.ofNat 8 ((twosComplement b).toNat + a.toNat)
  | .passA => a
  | .passB => b
  | .and => a &&& b
  | .xor => a ^^^ b
  | .zero => 0#8

/-- `ALU(op, A, B)` (`41_alu.md` R130). -/
def alu (op : AluOp) (a b : Byte) : AluOut where
  result := aluResult op a b
  zero := zeroOut op a b

end Sys2Proof.Machine
end

