-- ==== Sys2Proof/Config.lean ====
section
/-! DEFINITION. The six open parameters of `00_scope.md` R8, each a field of `Config`, and `Config.machine`: the
configuration of this model, every field at the default R8 gives it. The spec leaves no result of an instruction
undefined (`93_implementation_defined.md`), so there is no free value here; INPUT, the one free input of a step,
is a field of State (log entry 3). -/

namespace Sys2Proof

/-- `WORD_BIT_ORDER` (R8, D2): which bit of the 13-bit word is the first character of its text form. -/
inductive WordBitOrder where
  /-- The first character is bit 12 (the default). -/
  | firstIsBit12
  /-- The first character is bit 0. -/
  | firstIsBit0
deriving DecidableEq, Repr

/-- `PC_RANGE_POLICY` (R8, D4): what a next-pc value above 63 does. -/
inductive PcRangePolicy where
  /-- The cycle faults with PCOutOfRange and writes nothing (the default). -/
  | fault
  /-- The cycle commits its register, OUTPUT and stack writes, and the next fetch faults. -/
  | faultLate
  /-- The next pc is taken modulo 64. -/
  | wrap
deriving DecidableEq, Repr

/-- `CW_PACKING` (R8, D3): the least significant bit of each field in the 10-bit control word, and the values of
each coded field in the order of their codes from 0 (`40_control_decoder.md` R115). -/
structure CwPacking where
  stackOpLsb : Nat
  addrSrcLsb : Nat
  aluOpLsb : Nat
  aluSrcLsb : Nat
  regWrLsb : Nat
  outLatchLsb : Nat
  stackOps : List StackOp
  addrSrcs : List AddrSrc
  aluOps : List AluOp
  aluSrcs : List AluSrc
deriving DecidableEq, Repr

/-- The parameters the sources leave open (`00_scope.md` R8). -/
structure Config where
  /-- `OPMAP`: the mnemonic of each opcode, opcode 0 first (R75, D1). -/
  opmap : List Mnemonic
  /-- `WORD_BIT_ORDER` (D2). -/
  wordBitOrder : WordBitOrder
  /-- `CW_PACKING` (D3). -/
  cwPacking : CwPacking
  /-- `PC_RANGE_POLICY` (D4). -/
  pcRangePolicy : PcRangePolicy
  /-- `REG_RESET` (D5). -/
  regReset : Byte
  /-- `INPUT_HIGH_ZERO` (D9): may a proof assume INPUT[7:4] = 0. -/
  inputHighZero : Bool
deriving DecidableEq, Repr

/-- The default packing of `40_control_decoder.md` R115. DESIGN CHOICE of the spec (D3), log entry 8. -/
def CwPacking.byRow : CwPacking where
  stackOpLsb := 8
  addrSrcLsb := 6
  aluOpLsb := 3
  aluSrcLsb := 2
  regWrLsb := 1
  outLatchLsb := 0
  stackOps := [.hold, .push, .pop]
  addrSrcs := [.pcPlus1, .data, .tos, .dataIfZero]
  aluOps := [.add, .sub, .passA, .passB, .and, .xor, .zero]
  aluSrcs := [.reg, .input]

/-- The configuration of this model: every parameter at the default of `00_scope.md` R8.
DESIGN CHOICE of the spec (D1 to D5, D9); log entries 5 to 9 and 16. -/
def Config.machine : Config where
  opmap := [.call, .ret, .bz, .b, .add, .sub, .and, .ld, .out, .inp, .dout, .xor, .inXor]
  wordBitOrder := .firstIsBit12
  cwPacking := .byRow
  pcRangePolicy := .fault
  regReset := 0x00#8
  inputHighZero := false

end Sys2Proof
end

