-- ==== Sys2Proof/WellFormed.lean ====
section
/-! DEFINITION. The checks on what a model is given: a configuration (`OPMAP` a bijection onto 0..12, R75; a packing
that fits 10 bits, R115), an instruction under a configuration, the canonical form of ignored fields (R82), a program
(at most 64 words, `20_memory.md` R51) and an INPUT value under `INPUT_HIGH_ZERO` (R34). The widths of the operand
fields need no check: the types of `Syntax.lean` exclude a DEST or DATA that does not fit. -/

namespace Sys2Proof

/-- `OPMAP` is a bijection between the 13 mnemonics and the codes 0..12 (`30_encoding.md` R75): a list of 13
mnemonics in which none stands twice. -/
def opmapWf (l : List Mnemonic) : Bool := l.length == 13 && decide l.Nodup

/-- The bit positions a packing uses, one entry per bit. -/
def CwPacking.bits (p : CwPacking) : List Nat :=
  [p.stackOpLsb, p.stackOpLsb + 1, p.addrSrcLsb, p.addrSrcLsb + 1,
   p.aluOpLsb, p.aluOpLsb + 1, p.aluOpLsb + 2, p.aluSrcLsb, p.regWrLsb, p.outLatchLsb]

/-- A packing uses ten different bits below 10 and codes every value of every field once
(`40_control_decoder.md` R114, R115). -/
def CwPacking.wf (p : CwPacking) : Bool :=
  p.bits.all (· < 10) && decide p.bits.Nodup &&
  p.stackOps.length == 3 && decide p.stackOps.Nodup &&
  p.addrSrcs.length == 4 && decide p.addrSrcs.Nodup &&
  p.aluOps.length == 7 && decide p.aluOps.Nodup &&
  p.aluSrcs.length == 2 && decide p.aluSrcs.Nodup

/-- A configuration the spec admits (`00_scope.md` R8). -/
def Config.wf (c : Config) : Bool := opmapWf c.opmap && c.cwPacking.wf

/-- An instruction is well-formed under a configuration when its mnemonic has an opcode there. Under a configuration
that is itself well-formed every instruction is. -/
def Instr.wellFormed (c : Config) (i : Instr) : Bool := c.opmap.contains i.mnemonic

/-- The form the spec's assembly notation emits: a field the instruction ignores is 0 (`30_encoding.md` R78, R82).
The machine accepts every other form too. -/
def Instr.canonical : Instr → Bool
  | .call d _ | .b d _ | .dout d _ => d == .reg0
  | .ret d x => d == .reg0 && x == 0#8
  | .out _ x | .inp _ x => x == 0#8
  | .bz _ _ | .add _ _ | .sub _ _ | .and _ _ | .ld _ _ | .xor _ _ | .inXor _ _ => true

/-- A program the core may be given: at most 64 words (`20_memory.md` R51; more is the loader's ProgramOverflow). -/
def programFits (words : List Word) : Bool := words.length ≤ 64

/-- The law on an INPUT value under `INPUT_HIGH_ZERO` (`10_state.md` R34, D9): with the parameter false, none. -/
def inputLawful (c : Config) (v : Byte) : Bool := !c.inputHighZero || v.extractLsb' 4 4 == 0#4

end Sys2Proof
end

