-- ==== Sys2Proof/Decode.lean ====
section
/-! DEFINITION. Decoding a 13-bit word (`30_encoding.md` R71, R76) through stage 1 of the control decoder
(`40_control_decoder.md` R100), and after it the encoder. Both take the configuration (`OPMAP`, `WORD_BIT_ORDER`). -/

namespace Sys2Proof

/-- Why a word is no instruction: its OPCODE has no mnemonic (`30_encoding.md` R77). -/
inductive DecodeReject where
  | invalidOpcode (opcode : BitVec 4)
deriving DecidableEq, Repr

/-- The word with the first character of its text form as bit 12 (`WORD_BIT_ORDER`, D2). It is its own inverse. -/
def orderWord (o : WordBitOrder) (w : Word) : Word :=
  match o with
  | .firstIsBit12 => w
  | .firstIsBit0 => w.reverse

/-- OPCODE = w[12:9] (`30_encoding.md` R71). -/
def opcodeField (w : Word) : BitVec 4 := w.extractLsb' 9 4

/-- DEST = w[8] (`30_encoding.md` R71). -/
def destField (w : Word) : BitVec 1 := w.extractLsb' 8 1

/-- DATA = w[7:0] (`30_encoding.md` R71). -/
def dataField (w : Word) : Byte := w.extractLsb' 0 8

/-- "reg0 if DEST=0 else reg1" (`30_encoding.md` R72). -/
def RegName.ofBit (b : BitVec 1) : RegName := if b = 0#1 then .reg0 else .reg1

/-- The DEST bit that names a register (`30_encoding.md` R72). -/
def RegName.toBit : RegName → BitVec 1
  | .reg0 => 0#1
  | .reg1 => 1#1

/-- Stage 1 of the control decoder: opcode to mnemonic, or undefined (`40_control_decoder.md` R100). -/
def stage1 (c : Config) (opcode : BitVec 4) : Option Mnemonic :=
  if opcode.toNat ≤ 12 then c.opmap[opcode.toNat]? else none

/-- Decode a word under a configuration (`30_encoding.md` R76). -/
def decodeWith (c : Config) (w : Word) : Except DecodeReject Instr :=
  let t := orderWord c.wordBitOrder w
  match stage1 c (opcodeField t) with
  | some m => .ok (Instr.ofFields m (RegName.ofBit (destField t)) (dataField t))
  | none => .error (.invalidOpcode (opcodeField t))

/-- Decode a word under this model's configuration. -/
def decode (w : Word) : Except DecodeReject Instr := decodeWith Config.machine w

/-- The opcode of a mnemonic under `OPMAP` (`30_encoding.md` R75). -/
def opcodeOf (c : Config) (m : Mnemonic) : BitVec 4 := BitVec.ofNat 4 (c.opmap.idxOf m)

/-- The word `OPCODE(4) | DEST(1) | DATA(8)`, as an integer OPCODE * 512 + DEST * 256 + DATA (`30_encoding.md` R71). -/
def joinFields (opcode : BitVec 4) (dest : BitVec 1) (data : Byte) : Word :=
  BitVec.ofNat 13 (opcode.toNat * 512 + dest.toNat * 256 + data.toNat)

/-- The word of an instruction under a configuration (`30_encoding.md` R71, R75). -/
def encodeWith (c : Config) (i : Instr) : Word :=
  orderWord c.wordBitOrder (joinFields (opcodeOf c i.mnemonic) i.dest.toBit i.data)

/-- The word of an instruction under this model's configuration. -/
def encode (i : Instr) : Word := encodeWith Config.machine i

/-- The instruction the decoder reads from an opcode-table word. An instruction is one word of 13 bits; a number that
does not fit in 13 bits is no word (log entry 24). -/
def decodeTableWord (_nbits w : Nat) : Option Instr :=
  if w < 8192 then (decode (BitVec.ofNat 13 w)).toOption else none

end Sys2Proof
end

