-- ==== Sys2Proof/Machine/State.lean ====
section
/-! DEFINITION. The state of the core as plain data (`10_state.md` R20), the two faults (`60_exceptions.md` R220, R221),
the refusals, and the state after reset (`10_state.md` R41, `70_reset_and_hazards.md` R250). -/

namespace Sys2Proof.Machine

/-- The faults: the closed enumeration of `60_exceptions.md` R223, each with what it reports (D16). -/
inductive Fault where
  /-- Raised by the cycle when the fetched word's OPCODE is 13, 14 or 15 (R220). Safe: the spec's own fault, with
  no state written. It reports the pc and the word (log entry 19). -/
  | invalidOpcode (pc : Addr) (word : Word)
  /-- Raised by the cycle when the next pc would be above 63 (R171, R221). Safe: the machine stops where the
  hardware might go on (D4, log entry 9). It reports the pc and the next value. -/
  | pcOutOfRange (pc : Addr) (next : Nat)
deriving DecidableEq, Repr

/-- Why a step has no meaning. -/
inductive Refusal where
  /-- Raised by an arm of exec for an instruction that has no meaning yet; no arm is in that case. Safe. -/
  | notModelled (mnemonic : String)
  /-- Raised by the step in a state that a load has left and no reset has followed: the spec defines no such state
  (`70_reset_and_hazards.md` R254, D8, U10). Safe: nothing is claimed of it. -/
  | loadWithoutReset
deriving DecidableEq, Repr

/-- The call/return stack: exactly four 8-bit slots, slot 0 the top (`10_state.md` R30). -/
structure Stack where
  slot0 : Byte
  slot1 : Byte
  slot2 : Byte
  slot3 : Byte
deriving DecidableEq, Repr

/-- What the last interaction left the core in. `faulted` is the mark of `60_exceptions.md` R224 (D18);
`awaitingReset` is the state after a load with no reset (R254, D8). -/
inductive Status where
  | running
  | faulted (f : Fault)
  | awaitingReset
deriving DecidableEq, Repr

/-- The Program Store's contents (`20_memory.md` R50): pairs of an address and a word, addresses strictly rising and
below 64, no entry equal to the zero word that an unlisted address reads as (the zero padding of R51; log entry 1). -/
abbrev Memory := List (Nat × Word)

/-- The state of the core (`10_state.md` R20), its Program Store (R14), its INPUT port (R33), the environment's coming
writes to INPUT, and the fault mark (R224). -/
structure State where
  /-- The 6-bit program counter (R25). -/
  pc : Addr
  /-- General register reg0 (R21). -/
  reg0 : Byte
  /-- General register reg1 (R21). -/
  reg1 : Byte
  /-- The call/return stack (R30). -/
  stack : Stack
  /-- The OUTPUT latch (R35). -/
  output : Byte
  /-- The value on the INPUT port in the coming cycle (R33); the core never writes it. -/
  input : Byte
  /-- The values the environment will put on the INPUT port after each coming cycle, the nearest first; when the list
  is empty the port keeps its value (the model's own field, log entry 3). -/
  inputs : List Byte
  /-- The Program Store (R50, R51); no instruction writes it (R52). -/
  prog : Memory
  /-- Running, faulted or loaded without a reset (R224, R254). -/
  status : Status
deriving DecidableEq, Repr

/-- The machine right after reset (`10_state.md` R41, `70_reset_and_hazards.md` R250) with nothing loaded: every word
of the Program Store is the zero padding. reg0 and reg1 hold `REG_RESET` (D5, log entry 5). INPUT is not changed by a
reset; before anything drives it, it is 0x00 here (DESIGN CHOICE, log entry 4). -/
def State.reset : State where
  pc := 0#6
  reg0 := Config.machine.regReset
  reg1 := Config.machine.regReset
  stack := ⟨0#8, 0#8, 0#8, 0#8⟩
  output := 0#8
  input := 0#8
  inputs := []
  prog := []
  status := .running

end Sys2Proof.Machine
end

