-- ==== Sys2Proof/Machine/Operands.lean ====
section
/-! DEFINITION. Reading the register file (`10_state.md` R22) and selecting the two ALU operands
(`40_control_decoder.md` R117). -/

namespace Sys2Proof.Machine

/-- `reg[d]`: the value of a general register (`10_state.md` R21, R22). -/
def State.readReg (s : State) : RegName → Byte
  | .reg0 => s.reg0
  | .reg1 => s.reg1

/-- ALU operand A is always the DATA field (`40_control_decoder.md` R117). -/
def operandA (data : Byte) : Byte := data

/-- ALU operand B is the register named by DEST or the INPUT port, per ALUSrc (`40_control_decoder.md` R117). -/
def operandB (src : AluSrc) (d : RegName) (s : State) : Byte :=
  match src with
  | .reg => s.readReg d
  | .input => s.input

end Sys2Proof.Machine
end

