-- ==== Sys2Proof/Machine/Ops.lean ====
section
/-! DEFINITION. The named operations: the Program Store (`20_memory.md`), register, OUTPUT and stack writes
(`10_state.md`, `42_stack.md`), raising a fault (`60_exceptions.md` R224), the next-pc multiplexer and its range rule
(`43_execution_cycle.md` R170 to R172), reset (`70_reset_and_hazards.md` R250), and the frame of a cycle around an
instruction's meaning. -/

namespace Sys2Proof.Machine

/-! The Program Store. -/

/-- The word at an address; an unlisted address holds the zero word (`20_memory.md` R51, log entry 1). -/
def Memory.read : Memory → Nat → Word
  | [], _ => 0#13
  | (k, v) :: rest, a => if k = a then v else Memory.read rest a

/-- Put a word at an address, keeping the canonical form: only a load by the environment does this (R52). -/
def Memory.write : Memory → Nat → Word → Memory
  | [], a, w => if w = 0#13 then [] else [(a, w)]
  | (k, v) :: rest, a, w =>
    if a < k then
      if w = 0#13 then (k, v) :: rest else (a, w) :: (k, v) :: rest
    else if a = k then
      if w = 0#13 then rest else (a, w) :: rest
    else (k, v) :: Memory.write rest a w

/-- The canonical form from an address on: addresses strictly rising and below 64, no zero word listed. -/
def Memory.wfFrom : Nat → Memory → Bool
  | _, [] => true
  | lo, (k, v) :: rest => decide (lo ≤ k) && decide (k < 64) && decide (v ≠ 0#13) && Memory.wfFrom (k + 1) rest

/-- The canonical form of a Program Store. -/
def Memory.wf (m : Memory) : Bool := Memory.wfFrom 0 m

/-- The words of a program from an address on (`20_memory.md` R51: the words fill addresses in order). -/
def Memory.ofWordsFrom : Nat → List Word → Memory
  | _, [] => []
  | a, w :: ws => if w = 0#13 then Memory.ofWordsFrom (a + 1) ws else (a, w) :: Memory.ofWordsFrom (a + 1) ws

/-- The Program Store of a program of at most 64 words: its words from address 0, zero words after them (R51). -/
def Memory.ofWords (words : List Word) : Memory := Memory.ofWordsFrom 0 words

/-- `ProgRead(pc)`: step 1 of the cycle (`43_execution_cycle.md` R162). -/
def State.fetch (s : State) : Word := Memory.read s.prog s.pc.toNat

/-! The stack (`42_stack.md`). -/

/-- Push: every slot takes the one above it, slot 0 the new value, the old slot 3 is dropped (R151). -/
def Stack.push (k : Stack) (v : Byte) : Stack := ⟨v, k.slot0, k.slot1, k.slot2⟩

/-- Pop: answers slot 0, shifts towards the top, zero-fills slot 3 (R152). -/
def Stack.pop (k : Stack) : Byte × Stack := (k.slot0, ⟨k.slot1, k.slot2, k.slot3, 0#8⟩)

/-- Hold: no change (R153). -/
def Stack.hold (k : Stack) : Stack := k

/-- The top of the stack, a pure read (R154). -/
def Stack.top (k : Stack) : Byte := k.slot0

/-! Writes to the state. -/

/-- `pc <- t` for an address in range (`43_execution_cycle.md` R172). -/
def State.setPc (s : State) (a : Addr) : State := { s with pc := a }

/-- `reg[d] <- v`; the other register keeps its value (`10_state.md` R23). -/
def State.writeReg (s : State) (d : RegName) (v : Byte) : State :=
  match d with
  | .reg0 => { s with reg0 := v }
  | .reg1 => { s with reg1 := v }

/-- `OUTPUT <- v` (`10_state.md` R35). -/
def State.writeOutput (s : State) (v : Byte) : State := { s with output := v }

/-- Replace the stack. -/
def State.setStack (s : State) (k : Stack) : State := { s with stack := k }

/-- Replace the status mark (`60_exceptions.md` R224). -/
def State.setStatus (s : State) (m : Status) : State := { s with status := m }

/-- Replace the Program Store (a load, `70_reset_and_hazards.md` R254). -/
def State.setProg (s : State) (m : Memory) : State := { s with prog := m }

/-- The environment puts a value on the INPUT port between cycles (`70_reset_and_hazards.md` R259). -/
def State.driveInput (s : State) (v : Byte) : State := { s with input := v }

/-- What the environment does to INPUT after a completed cycle: its next listed value lands on the port; with none
listed the port keeps its value (R163: the last value written is the one sampled; log entry 3). -/
def State.envDrive (s : State) : State :=
  match s.inputs with
  | [] => s
  | v :: rest => { s with input := v, inputs := rest }

/-- Reset (`70_reset_and_hazards.md` R250): pc, registers, stack and OUTPUT; INPUT and the Program Store stay, and a
fault mark is gone (R251). -/
def State.resetCore (c : Config) (s : State) : State :=
  { s with
    pc := 0#6
    reg0 := c.regReset
    reg1 := c.regReset
    stack := ⟨0#8, 0#8, 0#8, 0#8⟩
    output := 0#8
    status := .running }

/-! The cycle's parts. -/

/-- "PC+1": the address of the executing instruction plus one, an integer in 1..64 (`10_state.md` R26). -/
def State.pcPlus1 (s : State) : Nat := s.pc.toNat + 1

/-- The return address a CALL pushes, `zext_8(pc + 1)`; 64 stays 64 (`10_state.md` R32, D10; log entry 14). -/
def State.returnAddress (s : State) : Byte := BitVec.ofNat 8 s.pcPlus1

/-- Taking a fault (`60_exceptions.md` R224, R228): the cycle ends with the state unchanged and the fault reported;
nothing is saved and control goes nowhere. There is no return from a fault (R229). -/
def raise (f : Fault) : Host.Outcome State Fault Refusal := .fault f

/-- The next-pc multiplexer (`43_execution_cycle.md` R170); the value is an integer, not cut to 6 bits. -/
def nextPc (src : AddrSrc) (pcPlus1 : Nat) (data tos : Byte) (zero : Bool) : Nat :=
  match src with
  | .pcPlus1 => pcPlus1
  | .data => data.toNat
  | .tos => tos.toNat
  | .dataIfZero => if zero then data.toNat else pcPlus1

/-- Commit (`43_execution_cycle.md` R171, R172): `t` holds the cycle's other writes and still the old pc. A next value
in 0..63 becomes the pc; a higher one does what `PC_RANGE_POLICY` says (D4; log entries 9 and 10). -/
def commit (policy : PcRangePolicy) (next : Nat) (t : State) : Host.Outcome State Fault Refusal :=
  if next ≤ 63 then .next (t.setPc (BitVec.ofNat 6 next))
  else
    match policy with
    | .fault => raise (.pcOutOfRange t.pc next)
    | .faultLate => .next (t.setStatus (.faulted (.pcOutOfRange t.pc next)))
    | .wrap => .next (t.setPc (BitVec.ofNat 6 next))

/-- Commit under this model's `PC_RANGE_POLICY`. -/
def finish (next : Nat) (t : State) : Host.Outcome State Fault Refusal := commit Config.machine.pcRangePolicy next t

/-- Commit with the next pc of every instruction that does not branch, pc + 1 (`10_state.md` R27). -/
def finishSequential (t : State) : Host.Outcome State Fault Refusal := finish t.pcPlus1 t

/-- Apply a change to the next state of an outcome; a fault or a refusal stays as it is. -/
def onNext (f : State → State) : Host.Outcome State Fault Refusal → Host.Outcome State Fault Refusal
  | .next t => .next (f t)
  | .fault r => .fault r
  | .refused r => .refused r

/-- The fault of a word that does not decode (`60_exceptions.md` R220). -/
def State.decodeFault (s : State) : DecodeReject → Fault
  | .invalidOpcode _ => .invalidOpcode s.pc s.fetch

/-- One cycle around the meanings of the instructions (`43_execution_cycle.md` R160, R162): a faulted core raises its
fault again (R224), a loaded core that was not reset does not run (R254), and otherwise the word at the pc is decoded
and its instruction run; after the cycle the environment may change INPUT (R265). -/
def runCycle (run : Instr → State → Host.Outcome State Fault Refusal) (s : State) :
    Host.Outcome State Fault Refusal :=
  match s.status with
  | .faulted f => raise f
  | .awaitingReset => .refused .loadWithoutReset
  | .running =>
    match decode s.fetch with
    | .error r => raise (s.decodeFault r)
    | .ok i => onNext State.envDrive (run i s)

/-- The state with a word stored where the next cycle fetches, and with nothing that keeps the cycle from running. -/
def State.placeWord (s : State) (w : Word) : State :=
  { s with prog := Memory.write s.prog s.pc.toNat w, status := .running }

end Sys2Proof.Machine
end

