-- ==== Sys2Proof/Machine/ArithLogic.lean ====
section
/-! DEFINITION. The meanings of ADD, SUB, AND, LD and XOR (`45_arithmetic_logic.md` R200 to R205). DATA is the ALU's
left operand, the register named by DEST the right one and the destination. -/

namespace Sys2Proof.Machine

/-- ADD (R200). -/
def execAdd (d : RegName) (data : Byte) (s : State) : Host.Outcome State Fault Refusal :=
  finishSequential (s.writeReg d (alu .add data (s.readReg d)).result)

/-- SUB (R201): DATA minus the register (log entry 25). -/
def execSub (d : RegName) (data : Byte) (s : State) : Host.Outcome State Fault Refusal :=
  finishSequential (s.writeReg d (alu .sub data (s.readReg d)).result)

/-- AND (R202). -/
def execAnd (d : RegName) (data : Byte) (s : State) : Host.Outcome State Fault Refusal :=
  finishSequential (s.writeReg d (alu .and data (s.readReg d)).result)

/-- LD (R203): the register takes DATA; its old value plays no part. -/
def execLd (d : RegName) (data : Byte) (s : State) : Host.Outcome State Fault Refusal :=
  finishSequential (s.writeReg d (alu .passA data (s.readReg d)).result)

/-- XOR (R204). -/
def execXor (d : RegName) (data : Byte) (s : State) : Host.Outcome State Fault Refusal :=
  finishSequential (s.writeReg d (alu .xor data (s.readReg d)).result)

end Sys2Proof.Machine
end

