-- ==== Sys2Proof/Machine/ControlTransfer.lean ====
section
/-! DEFINITION. The meanings of CALL, RET, BZ and B (`44_control_transfer.md` R190 to R193). -/

namespace Sys2Proof.Machine

/-- CALL (R190): push pc + 1, go to DATA. DEST is ignored. -/
def execCall (_d : RegName) (data : Byte) (s : State) : Host.Outcome State Fault Refusal :=
  finish data.toNat (s.setStack (s.stack.push s.returnAddress))

/-- RET (R191): go to the top of the stack as it was before the pop. DEST and DATA are ignored. -/
def execRet (_d : RegName) (_data : Byte) (s : State) : Host.Outcome State Fault Refusal :=
  finish s.stack.top.toNat (s.setStack s.stack.pop.2)

/-- BZ (R192): go to DATA when PASS_B of the register gives zero, else to pc + 1. -/
def execBz (d : RegName) (data : Byte) (s : State) : Host.Outcome State Fault Refusal :=
  finish (if (alu .passB data (s.readReg d)).zero then data.toNat else s.pcPlus1) s

/-- B (R193): go to DATA. DEST is ignored. -/
def execB (_d : RegName) (data : Byte) (s : State) : Host.Outcome State Fault Refusal :=
  finish data.toNat s

end Sys2Proof.Machine
end

