-- ==== Sys2Proof/Machine/InputOutput.lean ====
section
/-! DEFINITION. The meanings of OUT, IN, DOUT and IN_XOR (`46_io.md` R210 to R214). -/

namespace Sys2Proof.Machine

/-- OUT (R210): OUTPUT takes the register. DATA is ignored. -/
def execOut (d : RegName) (data : Byte) (s : State) : Host.Outcome State Fault Refusal :=
  finishSequential (s.writeOutput (alu .passB data (s.readReg d)).result)

/-- IN (R211): the register takes this cycle's INPUT. DATA is ignored. -/
def execIn (d : RegName) (data : Byte) (s : State) : Host.Outcome State Fault Refusal :=
  finishSequential (s.writeReg d (alu .passB data s.input).result)

/-- DOUT (R212): OUTPUT takes DATA. DEST is ignored. -/
def execDout (d : RegName) (data : Byte) (s : State) : Host.Outcome State Fault Refusal :=
  finishSequential (s.writeOutput (alu .passA data (s.readReg d)).result)

/-- IN_XOR (R213): the register takes DATA exclusive-ORed with this cycle's INPUT. -/
def execInXor (d : RegName) (data : Byte) (s : State) : Host.Outcome State Fault Refusal :=
  finishSequential (s.writeReg d (alu .xor data s.input).result)

end Sys2Proof.Machine
end

