-- ==== Sys2Proof/Machine/Dispatch.lean ====
section
/-! DEFINITION. One arm per instruction, each one call of its meaning. -/

namespace Sys2Proof.Machine

def exec (i : Instr) (s : State) : Host.Outcome State Fault Refusal :=
  match i with
  | .call d x => Sys2Proof.Machine.execCall d x s
  | .ret d x => Sys2Proof.Machine.execRet d x s
  | .bz d x => Sys2Proof.Machine.execBz d x s
  | .b d x => Sys2Proof.Machine.execB d x s
  | .add d x => Sys2Proof.Machine.execAdd d x s
  | .sub d x => Sys2Proof.Machine.execSub d x s
  | .and d x => Sys2Proof.Machine.execAnd d x s
  | .ld d x => Sys2Proof.Machine.execLd d x s
  | .out d x => Sys2Proof.Machine.execOut d x s
  | .inp d x => Sys2Proof.Machine.execIn d x s
  | .dout d x => Sys2Proof.Machine.execDout d x s
  | .xor d x => Sys2Proof.Machine.execXor d x s
  | .inXor d x => Sys2Proof.Machine.execInXor d x s

end Sys2Proof.Machine
end

