-- ==== Sys2Proof/Machine/Step.lean ====
section
/-! DEFINITION. One cycle of the core (`43_execution_cycle.md` R160), and placing a word where the next cycle fetches
(log entry 2: a program is loaded from outside the machine). -/

namespace Sys2Proof.Machine

/-- One cycle: fetch, decode, execute and commit one instruction, or a fault (`43_execution_cycle.md` R160). -/
def step (s : State) : Host.Outcome State Fault Refusal := runCycle exec s

/-- The state with the 13-bit word `w` stored at the pc, so that the next step runs it. -/
def State.withFetchWord (s : State) (_nbits w : Nat) : State := s.placeWord (BitVec.ofNat 13 w)

end Sys2Proof.Machine
end

