-- ==== Sys2Proof/Machine/Control.lean ====
section
/-! DEFINITION. Stage 2 of the control decoder, mnemonic to control word (`40_control_decoder.md` R101 to R113), and
the 10-bit packing of a control word (R115, `CW_PACKING`). -/

namespace Sys2Proof.Machine

/-- Stage 2: the control word of a mnemonic, row by row of the table (`40_control_decoder.md` R101 to R113). -/
def stage2 : Mnemonic → ControlWord
  | .call => ⟨.push, .data, .zero, .reg, false, false⟩
  | .ret => ⟨.pop, .tos, .zero, .reg, false, false⟩
  | .bz => ⟨.hold, .dataIfZero, .passB, .reg, false, false⟩
  | .b => ⟨.hold, .data, .zero, .reg, false, false⟩
  | .add => ⟨.hold, .pcPlus1, .add, .reg, true, false⟩
  | .sub => ⟨.hold, .pcPlus1, .sub, .reg, true, false⟩
  | .and => ⟨.hold, .pcPlus1, .and, .reg, true, false⟩
  | .ld => ⟨.hold, .pcPlus1, .passA, .reg, true, false⟩
  | .out => ⟨.hold, .pcPlus1, .passB, .reg, false, true⟩
  | .inp => ⟨.hold, .pcPlus1, .passB, .input, true, false⟩
  | .dout => ⟨.hold, .pcPlus1, .passA, .reg, false, true⟩
  | .xor => ⟨.hold, .pcPlus1, .xor, .reg, true, false⟩
  | .inXor => ⟨.hold, .pcPlus1, .xor, .input, true, false⟩

/-- Both stages: opcode to control word, or none when the opcode is undefined (`40_control_decoder.md` R100, R119). -/
def controlOf (c : Config) (opcode : BitVec 4) : Option ControlWord := (stage1 c opcode).map stage2

/-- The control word as a 10-bit value under a packing (`40_control_decoder.md` R115). -/
def packControl (p : CwPacking) (cw : ControlWord) : BitVec 10 :=
  BitVec.ofNat 10
    ((p.stackOps.idxOf cw.stackOp <<< p.stackOpLsb) + (p.addrSrcs.idxOf cw.addrSrc <<< p.addrSrcLsb) +
     (p.aluOps.idxOf cw.aluOp <<< p.aluOpLsb) + (p.aluSrcs.idxOf cw.aluSrc <<< p.aluSrcLsb) +
     (cw.regWr.toNat <<< p.regWrLsb) + (cw.outLatch.toNat <<< p.outLatchLsb))

/-- The control word a 10-bit value stands for; a code that no value has (StackOp 3, ALUOp 7) is refused
(`40_control_decoder.md` R115, U13). -/
def unpackControl (p : CwPacking) (v : BitVec 10) : Option ControlWord :=
  match p.stackOps[(v.extractLsb' p.stackOpLsb 2).toNat]?, p.addrSrcs[(v.extractLsb' p.addrSrcLsb 2).toNat]?,
      p.aluOps[(v.extractLsb' p.aluOpLsb 3).toNat]?, p.aluSrcs[(v.extractLsb' p.aluSrcLsb 1).toNat]? with
  | some so, some asrc, some op, some src =>
    some ⟨so, asrc, op, src, v.getLsbD p.regWrLsb, v.getLsbD p.outLatchLsb⟩
  | _, _, _, _ => none

end Sys2Proof.Machine
end

