-- ==== Sys2Proof/Machine/Engine.lean ====
section
/-! DEFINITION. The execution engine as the spec's step function gives it (`43_execution_cycle.md` R160): the control
word steers the data path. It is written apart from the instruction meanings, under any configuration; that the two
agree is a statement. `microcycleDocOrder` is the same cycle in the order of the source's numbered steps (C7). -/

namespace Sys2Proof.Machine

/-- Step 5 (`43_execution_cycle.md` R165, `10_state.md` R23). -/
def writeBack (regWr : Bool) (d : RegName) (result : Byte) (s : State) : State :=
  if regWr then s.writeReg d result else s

/-- Step 6 (`43_execution_cycle.md` R165, `10_state.md` R35). -/
def latchOutput (outLatch : Bool) (result : Byte) (s : State) : State :=
  if outLatch then s.writeOutput result else s

/-- Step 8 (`43_execution_cycle.md` R166): PUSH pushes pc + 1, POP drops the top, HOLD does nothing. -/
def applyStackOp (op : StackOp) (s : State) : State :=
  match op with
  | .push => s.setStack (s.stack.push s.returnAddress)
  | .pop => s.setStack s.stack.pop.2
  | .hold => s.setStack s.stack.hold

/-- Steps 3 to 10 in the order of R160: the next pc is computed before anything is written. -/
def microcycle (c : Config) (cw : ControlWord) (d : RegName) (data : Byte) (s : State) :
    Host.Outcome State Fault Refusal :=
  let out := alu cw.aluOp (operandA data) (operandB cw.aluSrc d s)
  let next := nextPc cw.addrSrc s.pcPlus1 data s.stack.top out.zero
  commit c.pcRangePolicy next
    (applyStackOp cw.stackOp (latchOutput cw.outLatch out.result (writeBack cw.regWr d out.result s)))

/-- Steps 3 to 10 in the source's own order: write-back, OUTPUT, capture of the top, stack, and only then the next pc,
each read from the state the steps before it left (`43_execution_cycle.md` R160, `90_conflicts.md` C7). -/
def microcycleDocOrder (c : Config) (cw : ControlWord) (d : RegName) (data : Byte) (s : State) :
    Host.Outcome State Fault Refusal :=
  let out := alu cw.aluOp (operandA data) (operandB cw.aluSrc d s)
  let s5 := writeBack cw.regWr d out.result s
  let s6 := latchOutput cw.outLatch out.result s5
  let tos := s6.stack.top
  let s8 := applyStackOp cw.stackOp s6
  let next := nextPc cw.addrSrc s8.pcPlus1 data tos out.zero
  commit c.pcRangePolicy next s8

/-- One whole cycle under a configuration (`43_execution_cycle.md` R160), with the marks and the environment's drive of
INPUT as in `runCycle`. -/
def cycle (c : Config) (s : State) : Host.Outcome State Fault Refusal :=
  match s.status with
  | .faulted f => raise f
  | .awaitingReset => .refused .loadWithoutReset
  | .running =>
    let t := orderWord c.wordBitOrder s.fetch
    match controlOf c (opcodeField t) with
    | none => raise (.invalidOpcode s.pc s.fetch)
    | some cw => onNext State.envDrive (microcycle c cw (RegName.ofBit (destField t)) (dataField t) s)

end Sys2Proof.Machine
end

