-- ==== Sys2Proof/Machine/Loader.lean ====
section
/-! DEFINITION. The two textual program-loader formats (`30_encoding.md` R84, R85). The loader is outside the core
(`00_scope.md` R4); it is here because the formats show an instruction word as text. A line is a list of characters. -/

namespace Sys2Proof.Machine

/-- What a line of a program file gives. -/
inductive LoaderLine where
  /-- The word of an accepted line. -/
  | word (w : Word)
  /-- A line that is not a valid instruction encoding is skipped and takes no address (R84, R222). -/
  | skipped
  /-- A hex value of 0x2000 or more, which the spec does not decide (R85, D11). -/
  | undecided
deriving DecidableEq, Repr

/-- The number whose binary digits are the characters, the first the most significant (R84). -/
def binaryNumber (chars : List Char) : Nat := chars.foldl (fun n ch => 2 * n + if ch = '1' then 1 else 0) 0

/-- A line of the text format (R84): everything from the comment mark on is dropped, then every character but 0 and 1;
the line is accepted when exactly 13 are left, the first of them OPCODE's first bit. -/
def loadTextLine (o : WordBitOrder) (line : List Char) : LoaderLine :=
  let bits := (line.takeWhile (· ≠ '#')).filter fun ch => ch = '0' || ch = '1'
  if bits.length = 13 then .word (orderWord o (BitVec.ofNat 13 (binaryNumber bits))) else .skipped

/-- The value of a hexadecimal digit. -/
def hexDigit (ch : Char) : Option Nat :=
  let n := ch.toNat
  if '0'.toNat ≤ n ∧ n ≤ '9'.toNat then some (n - '0'.toNat)
  else if 'A'.toNat ≤ n ∧ n ≤ 'F'.toNat then some (n - 'A'.toNat + 10)
  else if 'a'.toNat ≤ n ∧ n ≤ 'f'.toNat then some (n - 'a'.toNat + 10)
  else none

/-- A line of the hex format (R85): its first four characters as a hexadecimal number, which below 0x2000 is the word.
A line without four hexadecimal digits in front is skipped (log entry 21). -/
def loadHexLine (o : WordBitOrder) (line : List Char) : LoaderLine :=
  match (line.take 4).mapM hexDigit with
  | some [a, b, c, d] =>
    let v := ((a * 16 + b) * 16 + c) * 16 + d
    if v < 0x2000 then .word (orderWord o (BitVec.ofNat 13 v)) else .undecided
  | _ => .skipped

/-- The words of a file's lines in order, skipped lines left out; none where a line is undecided. -/
def collectLines : List LoaderLine → Option (List Word)
  | [] => some []
  | .word w :: rest => (collectLines rest).map (w :: ·)
  | .skipped :: rest => collectLines rest
  | .undecided :: _ => none

/-- The program of a text-format file (R84). -/
def loadTextProgram (o : WordBitOrder) (lines : List (List Char)) : Option (List Word) :=
  collectLines (lines.map (loadTextLine o))

/-- The program of a hex-format file (R85). -/
def loadHexProgram (o : WordBitOrder) (lines : List (List Char)) : Option (List Word) :=
  collectLines (lines.map (loadHexLine o))

end Sys2Proof.Machine
end

