-- ==== Sys2Proof/Machine/Environment.lean ====
section
/-! DEFINITION. What the environment can do to the core and see of it, between cycles (`70_reset_and_hazards.md` R259,
`10_state.md` R42). -/

namespace Sys2Proof.Machine

/-- The environment's actions on the core (`70_reset_and_hazards.md` R259). -/
inductive Event where
  /-- Replace the Program Store by a program of at most 64 words (R254). -/
  | load (words : List Word)
  /-- Reset (R250). -/
  | reset
  /-- Ask for one cycle (R160). -/
  | step
  /-- Put a value on the INPUT port (R33). -/
  | driveInput (v : Byte)
deriving DecidableEq, Repr

/-- Load (`70_reset_and_hazards.md` R254): the Program Store is replaced and reg0, reg1 take `REG_RESET`; the core then
awaits a reset, since the spec gives no state after a load alone (D8, log entry 12). A program that does not fit is
rejected (`20_memory.md` R51). -/
def State.load (c : Config) (words : List Word) (s : State) : Option State :=
  if programFits words then
    some { s with prog := Memory.ofWords words, reg0 := c.regReset, reg1 := c.regReset, status := .awaitingReset }
  else none

/-- Load followed by reset: where every run starts (`70_reset_and_hazards.md` R257). -/
def State.launch (c : Config) (words : List Word) (s : State) : Option State :=
  (s.load c words).map (State.resetCore c)

/-- The effect of an action, or none where it is rejected. A cycle that faults leaves every part of the state as it was
but the fault mark (`60_exceptions.md` R224). INPUT takes only the values `INPUT_HIGH_ZERO` admits (D9). -/
def State.act (s : State) : Event → Option State
  | .load words => s.load Config.machine words
  | .reset => some (s.resetCore Config.machine)
  | .step =>
    match step s with
    | .next t => some t
    | .fault f => some (s.setStatus (.faulted f))
    | .refused _ => none
  | .driveInput v => if inputLawful Config.machine v then some (s.driveInput v) else none

/-- A sequence of actions. -/
def State.actAll (s : State) : List Event → Option State
  | [] => some s
  | e :: es => (s.act e).bind fun t => t.actAll es

/-- The `fault` port: the outcome of the last cycle (`10_state.md` R42). -/
def State.faultPort (s : State) : Option Fault :=
  match s.status with
  | .faulted f => some f
  | .running | .awaitingReset => none

/-- The `pc` port, a read-only diagnostic (`10_state.md` R29, R42). -/
def State.pcPort (s : State) : Addr := s.pc

/-- The `OUTPUT` port (`10_state.md` R35, R42). -/
def State.outputPort (s : State) : Byte := s.output

/-- OUTPUT read as a plain unsigned integer (`10_state.md` R36). -/
def State.outputNumber (s : State) : Nat := s.outputPort.toNat

/-- The `prog_addr` port: the fetch address, equal to pc (`10_state.md` R42). -/
def State.progAddrPort (s : State) : Addr := s.pc

/-- The `prog_word` port: `ProgRead(prog_addr)` (`10_state.md` R42). -/
def State.progWordPort (s : State) : Word := Memory.read s.prog s.progAddrPort.toNat

end Sys2Proof.Machine
end

