-- ==== Sys2Proof/Safety.lean ====
section
/-! DEFINITION. The terms claims are made in: where an instruction goes next, the invariant of the machine's states, the
states a run can reach, a run without a fault, and the end of a run. -/

namespace Sys2Proof.Machine

/-- The next-pc value of each instruction as an integer, before any range rule (`10_state.md` R27): pc + 1, DATA, the
top of the stack, or DATA when the register tested is zero and pc + 1 otherwise. -/
def nextAddress (i : Instr) (s : State) : Nat :=
  match i with
  | .call _ x | .b _ x => x.toNat
  | .ret _ _ => s.stack.slot0.toNat
  | .bz .reg0 x => if s.reg0 = 0#8 then x.toNat else s.pc.toNat + 1
  | .bz .reg1 x => if s.reg1 = 0#8 then x.toNat else s.pc.toNat + 1
  | .add _ _ | .sub _ _ | .and _ _ | .ld _ _ | .out _ _ | .inp _ _ | .dout _ _ | .xor _ _ | .inXor _ _ =>
    s.pc.toNat + 1

/-- Every stack slot is 0 or a pushed pc + 1, so at most 64 (`10_state.md` R31). -/
def Stack.bounded (k : Stack) : Bool :=
  decide (k.slot0.toNat ≤ 64) && decide (k.slot1.toNat ≤ 64) && decide (k.slot2.toNat ≤ 64) &&
    decide (k.slot3.toNat ≤ 64)

/-- The invariant: the Program Store is in canonical form and every stack slot is at most 64. -/
def State.inv (s : State) : Bool := Memory.wf s.prog && s.stack.bounded

/-- Every INPUT value of the state, present or to come, keeps the law of `INPUT_HIGH_ZERO` (`10_state.md` R34). -/
def State.inputsLawful (c : Config) (s : State) : Bool := inputLawful c s.input && s.inputs.all (inputLawful c)

/-- The states the environment can bring the core to from a launch (`70_reset_and_hazards.md` R257, R259). -/
inductive Reachable : State → Prop where
  | launch (s t : State) (words : List Word) : s.launch Config.machine words = some t → Reachable t
  | act (s t : State) (e : Event) : Reachable s → s.act e = some t → Reachable t

/-- A run of `k` cycles without a fault: the premise of every claim about a program (`60_exceptions.md` R224). -/
def SafeFor (k : Nat) (s : State) : Prop := ∃ t, Sys2Proof.core.run k s = .next t

/-- The end of a run as the spec suggests it (`70_reset_and_hazards.md` R260, D12; log entry 18): the instruction at pc
is `B pc`. -/
def State.runEnded (s : State) : Bool :=
  match s.status, decode s.fetch with
  | .running, .ok (.b _ x) => x.toNat == s.pc.toNat
  | _, _ => false

end Sys2Proof.Machine
end

