-- ==== Sys2Proof/Certificates/Slice0/Obligations.lean ====
section
/-! DEFINITION. The statements for the provers. Each docstring names the rule of `spec/` it formalises. A result of an
instruction is stated as the whole next state, so it says its frame too. Statements that rest on a choice (`OPMAP` D1,
`PC_RANGE_POLICY` D4 and the like) say so and name the log entry. -/

open Sys2Proof Sys2Proof.Machine

/-! ## Encoding and decoding -/

/-- One word of each of the thirteen rows and the three undefined opcodes, bit by bit (`95_test_vectors.md` 2.2 and
2.5). Rests on the default `OPMAP` and bit order (D1, D2; log entries 6 and 7). -/
def Obligations.SampleWordsDecode : Prop :=
  decode 0b0000000000101#13 = .ok (.call .reg0 0x05#8) ∧
  decode 0b0001111111111#13 = .ok (.ret .reg1 0xFF#8) ∧
  decode 0b0010000001010#13 = .ok (.bz .reg0 0x0A#8) ∧
  decode 0b0011000000001#13 = .ok (.b .reg0 0x01#8) ∧
  decode 0b0100000000011#13 = .ok (.add .reg0 0x03#8) ∧
  decode 0b0101010101010#13 = .ok (.sub .reg0 0xAA#8) ∧
  decode 0b0110100000011#13 = .ok (.and .reg1 0x03#8) ∧
  decode 0b0111000000101#13 = .ok (.ld .reg0 0x05#8) ∧
  decode 0b1000111111111#13 = .ok (.out .reg1 0xFF#8) ∧
  decode 0b1001100000000#13 = .ok (.inp .reg1 0x00#8) ∧
  decode 0b1010101010101#13 = .ok (.dout .reg1 0x55#8) ∧
  decode 0b1011011111111#13 = .ok (.xor .reg0 0xFF#8) ∧
  decode 0b1100000001111#13 = .ok (.inXor .reg0 0x0F#8) ∧
  decode 0b1101000000000#13 = .error (.invalidOpcode 13#4) ∧
  decode 0b1110000000101#13 = .error (.invalidOpcode 14#4) ∧
  decode 0b1111111111111#13 = .error (.invalidOpcode 15#4)

/-- `30_encoding.md` R76 for every `OPMAP`: with OPCODE = w[12:9], DEST = w[8], DATA = w[7:0], a word whose OPCODE is at
most 12 decodes to the mnemonic `OPMAP` gives that code with those fields, and to that mnemonic's control word; any other
is an invalid opcode. The fields are read as numbers: w = OPCODE * 512 + DEST * 256 + DATA. -/
def Obligations.DecodeSplitsTheWordIntoFields : Prop :=
  ∀ (c : Config) (w : Word), c.wf = true → c.wordBitOrder = .firstIsBit12 →
    (w.toNat / 512 ≤ 12 → ∃ (m : Mnemonic) (d : RegName) (x : Byte),
      decodeWith c w = .ok (Instr.ofFields m d x) ∧ c.opmap[w.toNat / 512]? = some m ∧
      c.opmap.idxOf m = w.toNat / 512 ∧ (d = .reg0 ↔ w.toNat / 256 % 2 = 0) ∧ x.toNat = w.toNat % 256 ∧
      controlOf c (BitVec.ofNat 4 (w.toNat / 512)) = some (stage2 m)) ∧
    (12 < w.toNat / 512 →
      decodeWith c w = .error (.invalidOpcode (BitVec.ofNat 4 (w.toNat / 512))))

/-- `30_encoding.md` R77: the words 0x1A00 to 0x1FFF and no others are no instruction, whatever the `OPMAP`, and a
running core that fetches one raises InvalidOpcode. -/
def Obligations.UndefinedOpcodesRaiseInvalidOpcode : Prop :=
  (∀ (c : Config) (w : Word), c.wf = true → c.wordBitOrder = .firstIsBit12 →
    ((∃ r, decodeWith c w = .error r) ↔ 0x1A00 ≤ w.toNat)) ∧
  (∀ (c : Config) (s : State), c.wf = true → c.wordBitOrder = .firstIsBit12 → s.status = .running →
    0x1A00 ≤ s.fetch.toNat → ∃ p w, cycle c s = .fault (.invalidOpcode p w)) ∧
  (∀ s : State, s.status = .running → 0x1A00 ≤ s.fetch.toNat → ∃ p w, step s = .fault (.invalidOpcode p w))

/-- Headline: under every admitted configuration (every `OPMAP`, either bit order), decoding the word of an instruction
gives that instruction, for every mnemonic, DEST and DATA, ignored fields included (`30_encoding.md` R71, R75, R76). -/
def Obligations.DecodeOfEncodeIsIdentity : Prop :=
  ∀ (c : Config) (i : Instr), c.wf = true → decodeWith c (encodeWith c i) = .ok i

/-- The other direction: a word that decodes is the word of the instruction it decodes to, so each of the 6656 valid
words is exactly one instruction (`30_encoding.md` R76, R78). -/
def Obligations.EncodeOfDecodeIsIdentity : Prop :=
  ∀ (c : Config) (w : Word) (i : Instr), c.wf = true → decodeWith c w = .ok i → encodeWith c i = w

/-- The encodings the instruction rules give as numbers (`44_control_transfer.md`, `45_arithmetic_logic.md`,
`46_io.md`), with D the DEST bit. Rests on the default `OPMAP` (D1, log entry 6). -/
def Obligations.EncodingsMatchTheInstructionRules : Prop :=
  ∀ (d : RegName) (x : Byte),
    (encode (.call d x)).toNat = 0x0000 + 0x100 * d.toBit.toNat + x.toNat ∧
    (encode (.ret d x)).toNat = 0x0200 + 0x100 * d.toBit.toNat + x.toNat ∧
    (encode (.bz d x)).toNat = 0x0400 + 0x100 * d.toBit.toNat + x.toNat ∧
    (encode (.b d x)).toNat = 0x0600 + 0x100 * d.toBit.toNat + x.toNat ∧
    (encode (.add d x)).toNat = 0x0800 + 0x100 * d.toBit.toNat + x.toNat ∧
    (encode (.sub d x)).toNat = 0x0A00 + 0x100 * d.toBit.toNat + x.toNat ∧
    (encode (.and d x)).toNat = 0x0C00 + 0x100 * d.toBit.toNat + x.toNat ∧
    (encode (.ld d x)).toNat = 0x0E00 + 0x100 * d.toBit.toNat + x.toNat ∧
    (encode (.out d x)).toNat = 0x1000 + 0x100 * d.toBit.toNat + x.toNat ∧
    (encode (.inp d x)).toNat = 0x1200 + 0x100 * d.toBit.toNat + x.toNat ∧
    (encode (.dout d x)).toNat = 0x1400 + 0x100 * d.toBit.toNat + x.toNat ∧
    (encode (.xor d x)).toNat = 0x1600 + 0x100 * d.toBit.toNat + x.toNat ∧
    (encode (.inXor d x)).toNat = 0x1800 + 0x100 * d.toBit.toNat + x.toNat

/-- `30_encoding.md` R78 (derived there): CALL, B and DOUT ignore DEST, RET ignores both fields, OUT and IN ignore
DATA. -/
def Obligations.IgnoredFieldsChangeNothing : Prop :=
  ∀ (d e : RegName) (x y : Byte) (s : State),
    exec (.call d x) s = exec (.call e x) s ∧ exec (.ret d x) s = exec (.ret e y) s ∧
    exec (.b d x) s = exec (.b e x) s ∧ exec (.out d x) s = exec (.out d y) s ∧
    exec (.inp d x) s = exec (.inp d y) s ∧ exec (.dout d x) s = exec (.dout e x) s

/-! ## The control decoder -/

/-- `40_control_decoder.md` R120: each of the 13 mnemonics maps to exactly its control word, and the three undefined
opcodes have none and raise InvalidOpcode, under every `OPMAP`. -/
def Obligations.ControlTableIsTheSpecs : Prop :=
  stage2 .call = ⟨.push, .data, .zero, .reg, false, false⟩ ∧
  stage2 .ret = ⟨.pop, .tos, .zero, .reg, false, false⟩ ∧
  stage2 .bz = ⟨.hold, .dataIfZero, .passB, .reg, false, false⟩ ∧
  stage2 .b = ⟨.hold, .data, .zero, .reg, false, false⟩ ∧
  stage2 .add = ⟨.hold, .pcPlus1, .add, .reg, true, false⟩ ∧
  stage2 .sub = ⟨.hold, .pcPlus1, .sub, .reg, true, false⟩ ∧
  stage2 .and = ⟨.hold, .pcPlus1, .and, .reg, true, false⟩ ∧
  stage2 .ld = ⟨.hold, .pcPlus1, .passA, .reg, true, false⟩ ∧
  stage2 .out = ⟨.hold, .pcPlus1, .passB, .reg, false, true⟩ ∧
  stage2 .inp = ⟨.hold, .pcPlus1, .passB, .input, true, false⟩ ∧
  stage2 .dout = ⟨.hold, .pcPlus1, .passA, .reg, false, true⟩ ∧
  stage2 .xor = ⟨.hold, .pcPlus1, .xor, .reg, true, false⟩ ∧
  stage2 .inXor = ⟨.hold, .pcPlus1, .xor, .input, true, false⟩ ∧
  (∀ c : Config, controlOf c 0b1101#4 = none ∧ controlOf c 0b1110#4 = none ∧ controlOf c 0b1111#4 = none) ∧
  (∀ (c : Config) (s : State), s.status = .running →
    (opcodeField (orderWord c.wordBitOrder s.fetch) = 0b1101#4 ∨ opcodeField (orderWord c.wordBitOrder s.fetch) = 0b1110#4 ∨
      opcodeField (orderWord c.wordBitOrder s.fetch) = 0b1111#4) → ∃ p w, cycle c s = .fault (.invalidOpcode p w))

/-- The thirteen packed control words of `40_control_decoder.md` R115, unpacking back to the record, and the refusal of
the codes no value has (U13). Rests on the spec's own packing (D3, log entry 8). -/
def Obligations.ControlWordPackingTable : Prop :=
  packControl .byRow (stage2 .call) = 0x170#10 ∧ packControl .byRow (stage2 .ret) = 0x2B0#10 ∧
  packControl .byRow (stage2 .bz) = 0x0D8#10 ∧ packControl .byRow (stage2 .b) = 0x070#10 ∧
  packControl .byRow (stage2 .add) = 0x002#10 ∧ packControl .byRow (stage2 .sub) = 0x00A#10 ∧
  packControl .byRow (stage2 .and) = 0x022#10 ∧ packControl .byRow (stage2 .ld) = 0x012#10 ∧
  packControl .byRow (stage2 .out) = 0x019#10 ∧ packControl .byRow (stage2 .inp) = 0x01E#10 ∧
  packControl .byRow (stage2 .dout) = 0x011#10 ∧ packControl .byRow (stage2 .xor) = 0x02A#10 ∧
  packControl .byRow (stage2 .inXor) = 0x02E#10 ∧
  (∀ cw : ControlWord, unpackControl .byRow (packControl .byRow cw) = some cw) ∧
  (∀ v : BitVec 10, v.extractLsb' 8 2 = 3#2 ∨ v.extractLsb' 3 3 = 7#3 → unpackControl .byRow v = none)

/-! ## The ALU -/

/-- `41_alu.md` R131: the sum modulo 256, and zero exactly when the untruncated sum is 0. -/
def Obligations.AluAddRule : Prop :=
  ∀ a b : Byte, (alu .add a b).result.toNat = (a.toNat + b.toNat) % 256 ∧
    ((alu .add a b).zero = true ↔ a.toNat + b.toNat = 0) ∧ ((alu .add a b).zero = true ↔ a = 0#8 ∧ b = 0#8)

/-- `41_alu.md` R132 and the property of R141: SUB is ADD of the 8-bit two's complement in both outputs, its result is
A minus B modulo 256, and its zero is true exactly for two zero operands (the last rests on D6, log entry 13). -/
def Obligations.AluSubIsAddOfTwosComplement : Prop :=
  ∀ a b : Byte, alu .sub a b = alu .add a (BitVec.ofNat 8 (256 - b.toNat)) ∧
    (alu .sub a b).result.toNat = (a.toNat + (256 - b.toNat)) % 256 ∧
    ((alu .sub a b).zero = true ↔ a = 0#8 ∧ b = 0#8)

/-- `41_alu.md` R133 to R137: PASS_A, PASS_B and ZERO; AND and XOR bit by bit, with their zero outputs, and XOR undoing
itself. -/
def Obligations.AluPassLogicAndZeroRules : Prop :=
  ∀ a b : Byte,
    (alu .passA a b).result = a ∧ ((alu .passA a b).zero = true ↔ a.toNat = 0) ∧
    (alu .passB a b).result = b ∧ ((alu .passB a b).zero = true ↔ b.toNat = 0) ∧
    (∀ k, k < 8 → (alu .and a b).result.getLsbD k = (a.getLsbD k && b.getLsbD k)) ∧
    ((alu .and a b).zero = true ↔ (alu .and a b).result = 0#8) ∧
    (∀ k, k < 8 → (alu .xor a b).result.getLsbD k = Bool.xor (a.getLsbD k) (b.getLsbD k)) ∧
    ((alu .xor a b).zero = true ↔ (alu .xor a b).result = 0#8) ∧ ((alu .xor a b).zero = true ↔ a = b) ∧
    (alu .xor (alu .xor a b).result b).result = a ∧
    (alu .zero a b).result = 0x00#8 ∧ (alu .zero a b).zero = true

/-- `41_alu.md` R138 (derived there): for the five other operations the zero output is "the result is zero"; for ADD and
SUB it implies that and does not follow from it: any other number plus its two's complement, or minus itself, has result
0 and zero false (R131, R132). -/
def Obligations.ZeroOutputAgainstZeroResult : Prop :=
  (∀ (op : AluOp) (a b : Byte), op ≠ .add → op ≠ .sub →
    ((alu op a b).zero = true ↔ (alu op a b).result = 0#8)) ∧
  (∀ (op : AluOp) (a b : Byte), (alu op a b).zero = true → (alu op a b).result = 0#8) ∧
  (∀ a : Byte, a ≠ 0#8 → (alu .add a (BitVec.ofNat 8 (256 - a.toNat))).result = 0#8 ∧
    (alu .add a (BitVec.ofNat 8 (256 - a.toNat))).zero = false) ∧
  (∀ a : Byte, a ≠ 0#8 → (alu .sub a a).result = 0#8 ∧ (alu .sub a a).zero = false)

/-! ## The stack -/

/-- `42_stack.md` R151, R152 and R153: push, pop and hold, slot by slot. -/
def Obligations.StackOperationsShift : Prop :=
  ∀ (s0 s1 s2 s3 v : Byte),
    (Stack.mk s0 s1 s2 s3).push v = ⟨v, s0, s1, s2⟩ ∧
    (Stack.mk s0 s1 s2 s3).pop = (s0, ⟨s1, s2, s3, 0x00#8⟩) ∧
    (Stack.mk s0 s1 s2 s3).hold = ⟨s0, s1, s2, s3⟩

/-- `42_stack.md` R155 and R156 (derived there): five pushes on any stack leave the last four, latest on top; four pops
answer the slots in order, leave four zeros, and the top found by a fifth is 0. -/
def Obligations.FifthPushLosesTheOldest : Prop :=
  (∀ (k : Stack) (a b c d e : Byte),
    ((((k.push a).push b).push c).push d).push e = ⟨e, d, c, b⟩) ∧
  (∀ k : Stack, k.pop.1 = k.slot0 ∧ k.pop.2.pop.1 = k.slot1 ∧ k.pop.2.pop.2.pop.1 = k.slot2 ∧
    k.pop.2.pop.2.pop.2.pop.1 = k.slot3 ∧ k.pop.2.pop.2.pop.2.pop.2 = ⟨0#8, 0#8, 0#8, 0#8⟩ ∧
    k.pop.2.pop.2.pop.2.pop.2.top = 0#8)

/-! ## The data path -/

/-- `40_control_decoder.md` R117: A is DATA; B is the register DEST names or INPUT. -/
def Obligations.OperandSelectionRule : Prop :=
  ∀ (d : RegName) (x : Byte) (s : State), operandA x = x ∧ operandB .reg .reg0 s = s.reg0 ∧
    operandB .reg .reg1 s = s.reg1 ∧ operandB .input d s = s.input

/-- `10_state.md` R23: with RegWr the register DEST names takes the result and the other keeps its value; without it
neither changes. -/
def Obligations.RegisterWriteRule : Prop :=
  ∀ (d e : RegName) (v : Byte) (s : State),
    (writeBack true d v s).readReg d = v ∧ (e ≠ d → (writeBack true d v s).readReg e = s.readReg e) ∧
    (writeBack false d v s).readReg e = s.readReg e

/-- `43_execution_cycle.md` R170: the next-pc multiplexer, on integers. -/
def Obligations.NextPcMultiplexer : Prop :=
  ∀ (x tos : Byte) (zero : Bool) (s : State),
    nextPc .pcPlus1 s.pcPlus1 x tos zero = s.pc.toNat + 1 ∧ nextPc .data s.pcPlus1 x tos zero = x.toNat ∧
    nextPc .tos s.pcPlus1 x tos zero = tos.toNat ∧ nextPc .dataIfZero s.pcPlus1 x tos true = x.toNat ∧
    nextPc .dataIfZero s.pcPlus1 x tos false = s.pc.toNat + 1

/-! ## The instructions: what each does when it completes

Each has the hypothesis that its next pc is an address; `ExecCompletesOrFaultsByNextPc` says what happens otherwise. -/

/-- CALL (`44_control_transfer.md` R190, Operation): for every DEST and every DATA of 0..63 it completes, pushes the
address after it, and goes to DATA; registers and OUTPUT are unchanged. At address 63 the pushed value is 64 (D10, log
entry 14). -/
def Obligations.CallPushesReturnAddressAndJumps : Prop :=
  ∀ (d : RegName) (x : Byte) (s : State), x.toNat ≤ 63 →
    exec (.call d x) s = .next { s with
      pc := BitVec.ofNat 6 x.toNat
      stack := ⟨BitVec.ofNat 8 (s.pc.toNat + 1), s.stack.slot0, s.stack.slot1, s.stack.slot2⟩ }

/-- RET (`44_control_transfer.md` R191, Operation): with a top of 0..63 it completes, goes to the top as it was, and the
stack shifts up with a zero fill. -/
def Obligations.RetPopsAndJumpsToTheOldTop : Prop :=
  ∀ (d : RegName) (x : Byte) (s : State), s.stack.slot0.toNat ≤ 63 →
    exec (.ret d x) s = .next { s with
      pc := BitVec.ofNat 6 s.stack.slot0.toNat
      stack := ⟨s.stack.slot1, s.stack.slot2, s.stack.slot3, 0x00#8⟩ }

/-- BZ (`44_control_transfer.md` R192, Operation): it completes and changes only the pc, to DATA when the register is
zero (DATA in 0..63), to pc + 1 when it is not (pc below 63, any DATA). -/
def Obligations.BzBranchesOnAZeroRegister : Prop :=
  ∀ (d : RegName) (x : Byte) (s : State),
    (s.readReg d = 0x00#8 → x.toNat ≤ 63 → exec (.bz d x) s = .next { s with pc := BitVec.ofNat 6 x.toNat }) ∧
    (s.readReg d ≠ 0x00#8 → s.pc.toNat < 63 →
      exec (.bz d x) s = .next { s with pc := BitVec.ofNat 6 (s.pc.toNat + 1) })

/-- B (`44_control_transfer.md` R193, Operation): for every DATA of 0..63 it completes and changes only the pc. -/
def Obligations.BJumpsToData : Prop :=
  ∀ (d : RegName) (x : Byte) (s : State), x.toNat ≤ 63 →
    exec (.b d x) s = .next { s with pc := BitVec.ofNat 6 x.toNat }

/-- ADD (`45_arithmetic_logic.md` R200, Operation): below address 63 it completes; the register takes the sum modulo 256
of DATA and its old value, the pc is one further, and nothing else changes. -/
def Obligations.AddWritesTheWrappedSum : Prop :=
  ∀ (d : RegName) (x : Byte) (s : State), s.pc.toNat < 63 →
    exec (.add d x) s = .next
      { s.writeReg d (BitVec.ofNat 8 ((x.toNat + (s.readReg d).toNat) % 256)) with pc := BitVec.ofNat 6 (s.pc.toNat + 1) }

/-- SUB (`45_arithmetic_logic.md` R201, Operation): below address 63 it completes; the register takes DATA minus its old
value modulo 256, in that direction; nothing else changes but the pc. -/
def Obligations.SubWritesDataMinusRegister : Prop :=
  ∀ (d : RegName) (x : Byte) (s : State), s.pc.toNat < 63 →
    ∃ v : Byte, exec (.sub d x) s = .next { s.writeReg d v with pc := BitVec.ofNat 6 (s.pc.toNat + 1) } ∧
      (v.toNat : Int) = ((x.toNat : Int) - ((s.readReg d).toNat : Int)) % 256

/-- AND and XOR (`45_arithmetic_logic.md` R202, R204, Operation): below address 63 each completes; bit k of the register
becomes the and, or the exclusive or, of bit k of DATA and of its old value; nothing else changes but the pc. -/
def Obligations.AndXorWriteThePositionalResult : Prop :=
  ∀ (d : RegName) (x : Byte) (s : State), s.pc.toNat < 63 →
    (∃ v : Byte, exec (.and d x) s = .next { s.writeReg d v with pc := BitVec.ofNat 6 (s.pc.toNat + 1) } ∧
      ∀ k, v.getLsbD k = (x.getLsbD k && (s.readReg d).getLsbD k)) ∧
    (∃ v : Byte, exec (.xor d x) s = .next { s.writeReg d v with pc := BitVec.ofNat 6 (s.pc.toNat + 1) } ∧
      ∀ k, v.getLsbD k = Bool.xor (x.getLsbD k) ((s.readReg d).getLsbD k))

/-- LD (`45_arithmetic_logic.md` R203, Operation): below address 63 it completes; the register takes DATA; nothing else
changes but the pc. -/
def Obligations.LdWritesData : Prop :=
  ∀ (d : RegName) (x : Byte) (s : State), s.pc.toNat < 63 →
    exec (.ld d x) s = .next { s.writeReg d x with pc := BitVec.ofNat 6 (s.pc.toNat + 1) }

/-- OUT and DOUT (`46_io.md` R210, R212, Operation): below address 63 each completes; OUTPUT takes the register, or DATA;
nothing else changes but the pc. -/
def Obligations.OutDoutLatchOutput : Prop :=
  ∀ (d : RegName) (x : Byte) (s : State), s.pc.toNat < 63 →
    exec (.out d x) s = .next { s with output := s.readReg d, pc := BitVec.ofNat 6 (s.pc.toNat + 1) } ∧
    exec (.dout d x) s = .next { s with output := x, pc := BitVec.ofNat 6 (s.pc.toNat + 1) }

/-- IN and IN_XOR (`46_io.md` R211, R213, Operation): below address 63 each completes; the register takes all 8 bits of
this cycle's INPUT, or bit by bit the exclusive or of DATA and INPUT, its old value playing no part; nothing else changes
but the pc. -/
def Obligations.InInXorReadTheInputPort : Prop :=
  ∀ (d : RegName) (x : Byte) (s : State), s.pc.toNat < 63 →
    exec (.inp d x) s = .next { s.writeReg d s.input with pc := BitVec.ofNat 6 (s.pc.toNat + 1) } ∧
    (∃ v : Byte, exec (.inXor d x) s = .next { s.writeReg d v with pc := BitVec.ofNat 6 (s.pc.toNat + 1) } ∧
      ∀ k, v.getLsbD k = Bool.xor (x.getLsbD k) (s.input.getLsbD k))

/-- Every instruction of every state either completes with its next pc (`10_state.md` R27) or, when that value is above
63, faults with PCOutOfRange and reports the pc and the value; there is no other outcome (`60_exceptions.md` R223). The
fault rests on `PC_RANGE_POLICY` (D4, log entry 9). -/
def Obligations.ExecCompletesOrFaultsByNextPc : Prop :=
  ∀ (i : Instr) (s : State),
    (nextAddress i s ≤ 63 → ∃ t, exec i s = .next t ∧ t.pc.toNat = nextAddress i s) ∧
    (63 < nextAddress i s → exec i s = .fault (.pcOutOfRange s.pc (nextAddress i s)))

/-! ## Frames -/

/-- ADD, SUB, AND, LD, XOR, IN, IN_XOR that complete change only the register DEST names and the pc
(`45_arithmetic_logic.md` R205, `46_io.md` R214). -/
def Obligations.RegisterInstructionsFrame : Prop :=
  ∀ (i : Instr) (s t : State), i.mnemonic ∈ [.add, .sub, .and, .ld, .xor, .inp, .inXor] → exec i s = .next t →
    (∀ e, e ≠ i.dest → t.readReg e = s.readReg e) ∧ t.stack = s.stack ∧ t.output = s.output ∧
    t.input = s.input ∧ t.inputs = s.inputs ∧ t.status = s.status ∧
    (∀ a, Memory.read t.prog a = Memory.read s.prog a) ∧ t.pc.toNat = s.pc.toNat + 1

/-- OUT and DOUT that complete change only OUTPUT and the pc (`46_io.md` R210, R212, R214). -/
def Obligations.OutputInstructionsFrame : Prop :=
  ∀ (i : Instr) (s t : State), i.mnemonic ∈ [.out, .dout] → exec i s = .next t →
    (∀ e, t.readReg e = s.readReg e) ∧ t.stack = s.stack ∧
    t.input = s.input ∧ t.inputs = s.inputs ∧ t.status = s.status ∧
    (∀ a, Memory.read t.prog a = Memory.read s.prog a) ∧ t.pc.toNat = s.pc.toNat + 1

/-- CALL, RET, BZ and B that complete change neither register, nor OUTPUT, nor the Program Store; BZ and B leave the stack
alone too (`44_control_transfer.md` R190 to R193). -/
def Obligations.ControlTransferFrame : Prop :=
  ∀ (i : Instr) (s t : State), i.mnemonic ∈ [.call, .ret, .bz, .b] → exec i s = .next t →
    (∀ e, t.readReg e = s.readReg e) ∧ t.output = s.output ∧ t.input = s.input ∧ t.inputs = s.inputs ∧
    t.status = s.status ∧ (∀ a, Memory.read t.prog a = Memory.read s.prog a) ∧
    (i.mnemonic ∈ [.bz, .b] → t.stack = s.stack)

/-! ## The cycle -/

/-- A running core's step is exec of the instruction its fetched word decodes to, followed only by the environment's next
listed drive of INPUT; a fault of exec is the step's (`43_execution_cycle.md` R160, R162; log entry 3 for the list of INPUT values). -/
def Obligations.StepRunsTheDecodedInstruction : Prop :=
  ∀ (s : State) (i : Instr), s.status = .running → decode (Memory.read s.prog s.pc.toNat) = .ok i →
    (∀ t, exec i s = .next t → step s = .next t.envDrive) ∧ (∀ f, exec i s = .fault f → step s = .fault f)

/-- The thirteen instruction rules, as the step runs them, are the microcoded cycle of
`43_execution_cycle.md` R160 specialised to one control word each, for every state. -/
def Obligations.StepIsTheMicrocodedCycle : Prop :=
  ∀ s : State, step s = cycle Config.machine s

/-- `43_execution_cycle.md` R160, `90_conflicts.md` C7: the source's step order, where the writes come before the next pc
is computed, gives the same outcome, for every control word and configuration. -/
def Obligations.SourceStepOrderAgrees : Prop :=
  ∀ (c : Config) (cw : ControlWord) (d : RegName) (x : Byte) (s : State),
    microcycleDocOrder c cw d x s = microcycle c cw d x s

/-- Whatever `PC_RANGE_POLICY` the hardware has, a cycle that completes under the fault policy is a cycle of it
with the same next state, so a claim about runs without a fault holds of it (`92_eei_decisions.md` D4; log entry 9). -/
def Obligations.FaultPolicyRefinesEveryPolicy : Prop :=
  ∀ (c : Config) (p : PcRangePolicy) (s t : State), c.pcRangePolicy = .fault → cycle c s = .next t →
    cycle { c with pcRangePolicy := p } s = .next t

/-- The other two values of `PC_RANGE_POLICY` (`92_eei_decisions.md` D4, P5 of `95_test_vectors.md`), for a running core
whose next-pc value n is above 63. Both commit the cycle's register, OUTPUT and stack writes. The late fault keeps the pc
and sets the mark, and the cycle after it raises the fault; wrapping takes n modulo 64 as the pc. A late-fault cycle sets
no other mark, and wrapping never raises PCOutOfRange. The kept pc and the mark are the model's own choice, the return
address 64 beside a wrapping pc is deduced (log entry 10), and INPUT changes after the cycle (log entry 3). -/
def Obligations.OtherRangePolicies : Prop :=
  (∀ (c : Config) (s : State) (cw : ControlWord) (w : Word) (d : RegName) (x : Byte) (out : AluOut) (n : Nat),
    s.status = .running → w = orderWord c.wordBitOrder s.fetch → controlOf c (opcodeField w) = some cw →
    d = RegName.ofBit (destField w) → x = dataField w → out = alu cw.aluOp x (operandB cw.aluSrc d s) →
    n = nextPc cw.addrSrc s.pcPlus1 x s.stack.slot0 out.zero → 63 < n →
    ∃ t : State,
      (∀ r, t.readReg r = if cw.regWr = true ∧ r = d then out.result else s.readReg r) ∧
      t.output = (if cw.outLatch then out.result else s.output) ∧
      (cw.stackOp = .push →
        t.stack = ⟨BitVec.ofNat 8 (s.pc.toNat + 1), s.stack.slot0, s.stack.slot1, s.stack.slot2⟩) ∧
      (cw.stackOp = .pop → t.stack = ⟨s.stack.slot1, s.stack.slot2, s.stack.slot3, 0x00#8⟩) ∧
      (cw.stackOp = .hold → t.stack = s.stack) ∧
      t.input = s.input ∧ t.inputs = s.inputs ∧ t.prog = s.prog ∧
      (c.pcRangePolicy = .faultLate →
        cycle c s = .next (State.envDrive { t with pc := s.pc, status := .faulted (.pcOutOfRange s.pc n) }) ∧
        cycle c (State.envDrive { t with pc := s.pc, status := .faulted (.pcOutOfRange s.pc n) }) =
          .fault (.pcOutOfRange s.pc n)) ∧
      (c.pcRangePolicy = .wrap →
        cycle c s = .next (State.envDrive { t with pc := BitVec.ofNat 6 (n % 64), status := .running }))) ∧
  (∀ (c : Config) (s t : State), c.pcRangePolicy = .faultLate → cycle c s = .next t →
    t.status = .running ∨ ∃ n, 63 < n ∧ t.pc = s.pc ∧ t.status = .faulted (.pcOutOfRange s.pc n) ∧
      cycle c t = .fault (.pcOutOfRange s.pc n)) ∧
  (∀ (c : Config) (s : State) (p : Addr) (n : Nat), c.pcRangePolicy = .wrap → s.status = .running →
    cycle c s ≠ .fault (.pcOutOfRange p n))

/-- A cycle never writes the Program Store or the INPUT port; after it the port holds what the environment puts there next
(`20_memory.md` R52, `10_state.md` R33; log entry 3 for the list). -/
def Obligations.StepNeverWritesStoreOrInput : Prop :=
  ∀ s t : State, step s = .next t →
    (∀ a, Memory.read t.prog a = Memory.read s.prog a) ∧
    (s.inputs = [] → t.input = s.input ∧ t.inputs = []) ∧
    (∀ v vs, s.inputs = v :: vs → t.input = v ∧ t.inputs = vs)

/-! ## Whole-machine rules -/

/-- `10_state.md` R31 (derived there) and R35: between loads, only a CALL's cycle, a RET's cycle and a reset change the
stack, and only an OUT's cycle, a DOUT's cycle and a reset change OUTPUT. -/
def Obligations.OnlyTheNamedCyclesChangeStackAndOutput : Prop :=
  ∀ (s t : State) (e : Event), s.act e = some t → (∀ ws, e ≠ .load ws) →
    (t.stack ≠ s.stack → e = .reset ∨ (e = .step ∧ ∃ i, decode s.fetch = .ok i ∧ i.mnemonic ∈ [.call, .ret])) ∧
    (t.output ≠ s.output → e = .reset ∨ (e = .step ∧ ∃ i, decode s.fetch = .ok i ∧ i.mnemonic ∈ [.out, .dout]))

/-- `10_state.md` R20, R23: a register changes only in a cycle of one of the seven instructions that write one, and then
it is the one DEST names, or by a reset or a load. -/
def Obligations.OnlyRegisterWritersChangeRegisters : Prop :=
  ∀ (s t : State) (e : Event) (r : RegName), s.act e = some t → t.readReg r ≠ s.readReg r →
    e = .reset ∨ (∃ ws, e = .load ws) ∨
    (e = .step ∧ ∃ i, decode s.fetch = .ok i ∧ i.dest = r ∧
      i.mnemonic ∈ [.add, .sub, .and, .ld, .inp, .xor, .inXor])

/-- `20_memory.md` R52: only a load changes the Program Store. -/
def Obligations.OnlyLoadChangesTheProgramStore : Prop :=
  ∀ (s t : State) (e : Event), s.act e = some t → (∀ ws, e ≠ .load ws) → t.prog = s.prog

/-- `10_state.md` R33, `20_memory.md` R54: INPUT reaches the machine only through IN and IN_XOR; every other instruction
does the same whatever is on the port. -/
def Obligations.InputMattersOnlyToInAndInXor : Prop :=
  ∀ (i : Instr) (s : State) (v : Byte), i.mnemonic ∉ [.inp, .inXor] →
    exec i (s.driveInput v) = onNext (State.driveInput · v) (exec i s)

/-- The table of `10_state.md` R24 (derived there), the rows that do not read the register: LD, IN and IN_XOR give the same
whatever their register held; CALL, RET, B and DOUT do the same whatever either register holds. -/
def Obligations.RegistersAreReadOnlyByTheReaders : Prop :=
  ∀ (i : Instr) (s : State) (r : RegName) (v : Byte),
    (i.mnemonic ∈ [.ld, .inp, .inXor] → ∀ t, exec i s = .next t → exec i (s.writeReg i.dest v) = .next t) ∧
    (i.mnemonic ∈ [.call, .ret, .b, .dout] →
      exec i (s.writeReg r v) = onNext (State.writeReg · r v) (exec i s))

/-! ## Faults -/

/-- `60_exceptions.md` R224: a fault does not depend on INPUT, now or later. -/
def Obligations.FaultsDoNotDependOnInput : Prop :=
  ∀ (s : State) (v : Byte) (vs : List Byte) (f : Fault), step s = .fault f →
    step { s with input := v, inputs := vs } = .fault f

/-- `60_exceptions.md` R220, R224, R225: a cycle that faults leaves a mark and every other part of the state as it was, and
no later cycle or INPUT clears the mark or changes the pc, a register, the stack, OUTPUT or the Program Store. The mark
is the spec's decision D18 (log entry 11). -/
def Obligations.FaultMarkStaysUntilReset : Prop :=
  ∀ (s : State) (f : Fault) (es : List Event) (t : State), step s = .fault f →
    (∀ e ∈ es, e = .step ∨ ∃ v, e = .driveInput v) → s.actAll (.step :: es) = some t →
    t.status = .faulted f ∧ t.faultPort = some f ∧ t.pc = s.pc ∧ t.reg0 = s.reg0 ∧ t.reg1 = s.reg1 ∧
    t.stack = s.stack ∧ t.output = s.output ∧ t.prog = s.prog

/-- What a running core's two faults report and when (`60_exceptions.md` R220, R221, R227; D4 and D16, log entries 9 and
19): InvalidOpcode with the pc and the word when OPCODE is 13 to 15, PCOutOfRange with the pc and the next value when a
decoded instruction's next pc is above 63, and no other. -/
def Obligations.StepFaultsExactlyWhenTheRulesSay : Prop :=
  ∀ (s : State) (f : Fault), s.status = .running →
    (step s = .fault f ↔
      (12 < s.fetch.toNat / 512 ∧ f = .invalidOpcode s.pc s.fetch) ∨
      (∃ i, decode s.fetch = .ok i ∧ 63 < nextAddress i s ∧ f = .pcOutOfRange s.pc (nextAddress i s)))

/-- In a state that keeps the invariant, a RET faults only for a top of exactly 64, the return address of a CALL at 63,
and completes for any other (`44_control_transfer.md` R191, Faults; `10_state.md` R31; D4, log entry 9). -/
def Obligations.RetFaultsOnlyForATopOfSixtyFour : Prop :=
  ∀ (s : State) (d : RegName) (x : Byte), s.inv = true →
    (s.stack.slot0 = 64#8 → exec (.ret d x) s = .fault (.pcOutOfRange s.pc 64)) ∧
    (s.stack.slot0 ≠ 64#8 → ∃ t, exec (.ret d x) s = .next t)

/-! ## Calls and returns -/

/-- A RET that finds the stack a CALL below address 63 left goes to the word after the CALL and gives the three upper slots
back; a CALL at address 63 completes and pushes 64, and the RET that finds it faults (`44_control_transfer.md` R190, R191;
`43_execution_cycle.md` R166; D4, D10; log entries 9 and 14). -/
def Obligations.RetUndoesCall : Prop :=
  ∀ (d e : RegName) (x y : Byte) (s : State), x.toNat ≤ 63 →
    ∃ u, exec (.call d x) s = .next u ∧ ∀ w : State, w.stack = u.stack →
      (s.pc.toNat < 63 → ∃ t, exec (.ret e y) w = .next t ∧ t.pc.toNat = s.pc.toNat + 1 ∧
        t.stack = ⟨s.stack.slot0, s.stack.slot1, s.stack.slot2, 0x00#8⟩) ∧
      (s.pc.toNat = 63 → exec (.ret e y) w = .fault (.pcOutOfRange w.pc 64))

/-! ## Invariants -/

/-- The invariant holds in the state after reset. -/
def Obligations.ResetStateKeepsTheInvariant : Prop := State.reset.inv = true

/-- Headline: every cycle keeps the invariant, from every state that has it: the Program Store stays in canonical form and
every stack slot stays 0 to 64 (`10_state.md` R30, R31). -/
def Obligations.StepKeepsTheInvariant : Prop :=
  ∀ s t : State, s.inv = true → step s = .next t → t.inv = true

/-- Every state the environment can bring the core to, by any program, any INPUT, cycles, resets and loads, has
the invariant (`70_reset_and_hazards.md` R257, R259). -/
def Obligations.ReachableStatesHaveTheInvariant : Prop :=
  ∀ s : State, Reachable s → s.inv = true

/-- Headline: every action of the environment, a load, a reset, a cycle whatever its outcome, a new INPUT, keeps the
invariant, from every state that has it (`10_state.md` R30, R31; `20_memory.md` R51; `70_reset_and_hazards.md` R259). -/
def Obligations.EveryActionKeepsTheInvariant : Prop :=
  ∀ (s t : State) (e : Event), s.inv = true → s.act e = some t → t.inv = true

/-! ## Reset, load and the end of a run -/

/-- `70_reset_and_hazards.md` R250, with `REG_RESET` a parameter. -/
def Obligations.ResetPutsTheCoreInItsStartState : Prop :=
  ∀ (c : Config) (s : State), (s.resetCore c).pc = 0#6 ∧ (s.resetCore c).reg0 = c.regReset ∧
    (s.resetCore c).reg1 = c.regReset ∧ (s.resetCore c).stack = ⟨0x00#8, 0x00#8, 0x00#8, 0x00#8⟩ ∧
    (s.resetCore c).output = 0x00#8

/-- `70_reset_and_hazards.md` R251, R253: reset leaves INPUT and the Program Store, ends a fault, and the next cycle fetches
address 0. -/
def Obligations.ResetKeepsInputAndProgram : Prop :=
  ∀ (c : Config) (s : State), (s.resetCore c).input = s.input ∧
    (∀ a, Memory.read (s.resetCore c).prog a = Memory.read s.prog a) ∧ (s.resetCore c).faultPort = none ∧
    (s.resetCore c).status = .running ∧ (s.resetCore c).fetch = Memory.read s.prog 0

/-- `20_memory.md` R51: a program of at most 64 words fills the addresses in order, the rest is zero words, and the core
starts in its reset state, INPUT kept (`70_reset_and_hazards.md` R250, R251, R257); a longer program is rejected. The
launch state is the spec's decision D8, and the register value its parameter `REG_RESET` (D5; log entry 5). -/
def Obligations.LaunchLoadsAndZeroPads : Prop :=
  ∀ (c : Config) (ws : List Word) (s : State),
    (ws.length ≤ 64 → ∃ t, s.launch c ws = some t ∧ (∀ a, a < 64 → Memory.read t.prog a = ws.getD a 0#13) ∧
      t.pc = 0#6 ∧ t.reg0 = c.regReset ∧ t.reg1 = c.regReset ∧ t.stack = ⟨0x00#8, 0x00#8, 0x00#8, 0x00#8⟩ ∧
      t.output = 0x00#8 ∧ t.status = .running ∧ t.input = s.input) ∧
    (64 < ws.length → s.launch c ws = none)

/-- After a load with no reset the core does not run: the spec gives no such state (`70_reset_and_hazards.md` R254, D8;
the refusal is the model's form of it, log entry 12). -/
def Obligations.LoadAloneDoesNotRun : Prop :=
  ∀ (c : Config) (ws : List Word) (s t : State), s.load c ws = some t →
    step t = .refused .loadWithoutReset ∧ t.reg0 = c.regReset ∧ t.reg1 = c.regReset

/-- `20_memory.md` R60 (derived there): the all-zero word is executed as an instruction, CALL 0 under the default `OPMAP`
(D1, log entry 6): it pushes pc + 1 and restarts at address 0, with no reset of anything. -/
def Obligations.ZeroPaddingIsExecutedAsCallZero : Prop :=
  ∀ s : State, s.status = .running → s.fetch = 0#13 →
    step s = .next (State.envDrive { s with
      pc := 0#6
      stack := ⟨BitVec.ofNat 8 (s.pc.toNat + 1), s.stack.slot0, s.stack.slot1, s.stack.slot2⟩ })

/-- The spec's suggested end of a run (`70_reset_and_hazards.md` R260, D12; log entry 18): at `B pc` the state is a fixed
point but for the environment's INPUT, and with no INPUT to come any number of cycles leave it as it is. -/
def Obligations.EndedRunStaysWhereItIs : Prop :=
  (∀ s : State, s.runEnded = true → step s = .next s.envDrive) ∧
  (∀ (k : Nat) (s : State), s.runEnded = true → s.inputs = [] → Sys2Proof.core.run k s = .next s)

/-- With INPUT[7:4] = 0 an IN leaves a zero high nibble and an IN_XOR leaves DATA's (`46_io.md` R211, R213, Corner cases;
D9, log entry 16). -/
def Obligations.HighNibbleUnderInputHighZero : Prop :=
  ∀ (d : RegName) (x : Byte) (s t : State), inputLawful { Config.machine with inputHighZero := true } s.input = true →
    (exec (.inp d x) s = .next t → (t.readReg d).extractLsb' 4 4 = 0#4) ∧
    (exec (.inXor d x) s = .next t → (t.readReg d).extractLsb' 4 4 = x.extractLsb' 4 4)

/-! ## The loader's formats -/

/-- `30_encoding.md` R84, R85: the 13 characters of a word, most significant first, then a comment, are read as that word;
four hexadecimal digits of a value below 0x2000 are read as the word of that value. Rests on the default bit order (D2,
log entry 7). -/
def Obligations.LoaderReadsWordsBack : Prop :=
  (∀ (w : Word) (comment : List Char),
    loadTextLine .firstIsBit12
      ((List.range 13).map (fun k => if w.getLsbD (12 - k) then '1' else '0') ++ '#' :: comment) = .word w) ∧
  (∀ (p q r u : Char) (a b c d : Nat) (rest : List Char), hexDigit p = some a → hexDigit q = some b →
    hexDigit r = some c → hexDigit u = some d → 4096 * a + 256 * b + 16 * c + d < 0x2000 →
    loadHexLine .firstIsBit12 (p :: q :: r :: u :: rest) =
      .word (BitVec.ofNat 13 (4096 * a + 256 * b + 16 * c + d)))
end

