-- ==== Sys2Proof/Laws/Control.lean ====
section
/-! SUPPORT. The properties of the control-word table that `40_control_decoder.md` R116 lists. -/

namespace Sys2Proof.Machine

/-- No control word writes both a register and OUTPUT (R116, 1). -/
theorem stage2_one_result (m : Mnemonic) : ((stage2 m).regWr && (stage2 m).outLatch) = false := by cases m <;> rfl

/-- An instruction branches exactly when it writes neither a register nor OUTPUT (R116, 3). -/
theorem stage2_branch_iff (m : Mnemonic) :
    (stage2 m).addrSrc ≠ .pcPlus1 ↔ (stage2 m).regWr = false ∧ (stage2 m).outLatch = false := by
  cases m <;> simp [stage2]

/-- The top of the stack is the next pc exactly for the pop, and a push goes to DATA (R116, 7). -/
theorem stage2_stack (m : Mnemonic) :
    ((stage2 m).addrSrc = .tos ↔ (stage2 m).stackOp = .pop) ∧
      ((stage2 m).stackOp = .push → (stage2 m).addrSrc = .data) := by
  cases m <;> simp [stage2]

/-- The thirteen control words are pairwise distinct (R116, 8). -/
theorem stage2_injective (m n : Mnemonic) (h : stage2 m = stage2 n) : m = n := by
  cases m <;> cases n <;> first | rfl | simp [stage2] at h

end Sys2Proof.Machine
end

