-- ==== Sys2Proof/Laws/Decode.lean ====
section
/-! SUPPORT. The fields of a word as numbers, the order of a word's bits, and the two register names. -/

namespace Sys2Proof

@[simp] theorem orderWord_orderWord (o : WordBitOrder) (w : Word) : orderWord o (orderWord o w) = w := by
  cases o
  · rfl
  · exact BitVec.reverse_reverse_eq

theorem opcodeField_toNat (w : Word) : (opcodeField w).toNat = w.toNat / 512 := by
  have := w.isLt
  simp only [opcodeField, BitVec.extractLsb'_toNat, Nat.shiftRight_eq_div_pow]
  omega

theorem destField_toNat (w : Word) : (destField w).toNat = w.toNat / 256 % 2 := by
  simp only [destField, BitVec.extractLsb'_toNat, Nat.shiftRight_eq_div_pow]

theorem dataField_toNat (w : Word) : (dataField w).toNat = w.toNat % 256 := by
  simp only [dataField, BitVec.extractLsb'_toNat, Nat.shiftRight_zero]

theorem joinFields_toNat (o : BitVec 4) (b : BitVec 1) (x : Byte) :
    (joinFields o b x).toNat = o.toNat * 512 + b.toNat * 256 + x.toNat := by
  have := o.isLt; have := b.isLt; have := x.isLt
  simp only [joinFields, BitVec.toNat_ofNat]
  omega

@[simp] theorem opcodeField_joinFields (o : BitVec 4) (b : BitVec 1) (x : Byte) :
    opcodeField (joinFields o b x) = o := by
  have := b.isLt; have := x.isLt
  apply BitVec.eq_of_toNat_eq
  rw [opcodeField_toNat, joinFields_toNat]
  omega

@[simp] theorem destField_joinFields (o : BitVec 4) (b : BitVec 1) (x : Byte) :
    destField (joinFields o b x) = b := by
  have := b.isLt; have := x.isLt
  apply BitVec.eq_of_toNat_eq
  rw [destField_toNat, joinFields_toNat]
  omega

@[simp] theorem dataField_joinFields (o : BitVec 4) (b : BitVec 1) (x : Byte) :
    dataField (joinFields o b x) = x := by
  have := x.isLt
  apply BitVec.eq_of_toNat_eq
  rw [dataField_toNat, joinFields_toNat]
  omega

/-- A word is its three fields. -/
@[simp] theorem joinFields_fields (w : Word) : joinFields (opcodeField w) (destField w) (dataField w) = w := by
  apply BitVec.eq_of_toNat_eq
  rw [joinFields_toNat, opcodeField_toNat, destField_toNat, dataField_toNat]
  omega

@[simp] theorem RegName.ofBit_toBit (d : RegName) : RegName.ofBit d.toBit = d := by cases d <;> decide

theorem RegName.toBit_ofBit (b : BitVec 1) : (RegName.ofBit b).toBit = b := by
  revert b; decide

@[simp] theorem Instr.ofFields_fields (i : Instr) : Instr.ofFields i.mnemonic i.dest i.data = i := by cases i <;> rfl
@[simp] theorem Instr.mnemonic_ofFields (m : Mnemonic) (d : RegName) (x : Byte) :
    (Instr.ofFields m d x).mnemonic = m := by cases m <;> rfl
@[simp] theorem Instr.dest_ofFields (m : Mnemonic) (d : RegName) (x : Byte) :
    (Instr.ofFields m d x).dest = d := by cases m <;> rfl
@[simp] theorem Instr.data_ofFields (m : Mnemonic) (d : RegName) (x : Byte) :
    (Instr.ofFields m d x).data = x := by cases m <;> rfl

end Sys2Proof
end

