-- ==== Sys2Proof/Laws/Memory.lean ====
section
/-! SUPPORT. The Program Store: a read after a write, the canonical form kept by every operation, and the words of a
loaded program (`20_memory.md` R51). -/

namespace Sys2Proof.Machine

@[simp] theorem Memory.read_nil (a : Nat) : Memory.read [] a = 0#13 := rfl

theorem Memory.read_cons (k : Nat) (v : Word) (m : Memory) (a : Nat) :
    Memory.read ((k, v) :: m) a = if k = a then v else Memory.read m a := rfl

theorem Memory.wfFrom_cons (lo k : Nat) (v : Word) (m : Memory) :
    Memory.wfFrom lo ((k, v) :: m) = true ↔ lo ≤ k ∧ k < 64 ∧ v ≠ 0#13 ∧ Memory.wfFrom (k + 1) m = true := by
  simp [Memory.wfFrom, and_assoc]

/-- A store canonical from an address on is canonical from any lower one. -/
theorem Memory.wfFrom_mono {lo lo' : Nat} {m : Memory} (h : Memory.wfFrom lo m = true) (hle : lo' ≤ lo) :
    Memory.wfFrom lo' m = true := by
  match m, h with
  | [], _ => rfl
  | (k, v) :: m, h =>
    rw [Memory.wfFrom_cons] at h ⊢
    exact ⟨hle.trans h.1, h.2⟩

/-- Below its first address a canonical store holds zero words. -/
theorem Memory.read_of_lt {lo a : Nat} {m : Memory} (h : Memory.wfFrom lo m = true) (ha : a < lo) :
    Memory.read m a = 0#13 := by
  induction m generalizing lo with
  | nil => rfl
  | cons kv m ih =>
    obtain ⟨k, v⟩ := kv
    rw [Memory.wfFrom_cons] at h
    rw [Memory.read_cons, if_neg (by omega)]
    exact ih h.2.2.2 (by omega)

/-- A canonical store holds zero words from address 64 on: no such address exists (`20_memory.md` R58). -/
theorem Memory.read_of_ge {lo a : Nat} {m : Memory} (h : Memory.wfFrom lo m = true) (ha : 64 ≤ a) :
    Memory.read m a = 0#13 := by
  induction m generalizing lo with
  | nil => rfl
  | cons kv m ih =>
    obtain ⟨k, v⟩ := kv
    rw [Memory.wfFrom_cons] at h
    rw [Memory.read_cons, if_neg (by omega)]
    exact ih h.2.2.2

/-- A write keeps the canonical form from any address not above the one written. -/
theorem Memory.wfFrom_write {lo a : Nat} {w : Word} {m : Memory} (h : Memory.wfFrom lo m = true) (hlo : lo ≤ a)
    (ha : a < 64) : Memory.wfFrom lo (Memory.write m a w) = true := by
  induction m generalizing lo with
  | nil =>
    unfold Memory.write
    split
    · rfl
    · simp [Memory.wfFrom, *]
  | cons kv m ih =>
    obtain ⟨k, v⟩ := kv
    have hc := (Memory.wfFrom_cons lo k v m).1 h
    obtain ⟨hlk, hk, hv, hm⟩ := hc
    unfold Memory.write
    split
    · split
      · exact h
      · exact (Memory.wfFrom_cons ..).2 ⟨hlo, ha, ‹_›, (Memory.wfFrom_cons ..).2 ⟨by omega, hk, hv, hm⟩⟩
    · split
      · split
        · exact Memory.wfFrom_mono hm (by omega)
        · exact (Memory.wfFrom_cons ..).2 ⟨hlo, ha, ‹_›, Memory.wfFrom_mono hm (by omega)⟩
      · exact (Memory.wfFrom_cons ..).2 ⟨hlk, hk, hv, ih hm (by omega)⟩

/-- Every write to an address of the store keeps the canonical form. -/
theorem Memory.wf_write {a : Nat} {w : Word} {m : Memory} (h : Memory.wf m = true) (ha : a < 64) :
    Memory.wf (Memory.write m a w) = true :=
  Memory.wfFrom_write h (Nat.zero_le a) ha

theorem Memory.read_write_same_from {lo a : Nat} {w : Word} {m : Memory} (h : Memory.wfFrom lo m = true) :
    Memory.read (Memory.write m a w) a = w := by
  induction m generalizing lo with
  | nil =>
    unfold Memory.write
    split
    · next hw => rw [hw]; rfl
    · simp [Memory.read]
  | cons kv m ih =>
    obtain ⟨k, v⟩ := kv
    have hm := ((Memory.wfFrom_cons lo k v m).1 h).2.2.2
    unfold Memory.write
    split
    · split
      · next hak hw =>
        rw [Memory.read_cons, if_neg (by omega), Memory.read_of_lt hm (by omega), hw]
      · simp [Memory.read]
    · split
      · split
        · next hak hw => rw [hw, Memory.read_of_lt hm (by omega)]
        · simp [Memory.read]
      · rw [Memory.read_cons, if_neg (by omega)]
        exact ih hm

/-- A read after a write to the same address gives the word written. -/
theorem Memory.read_write_same {a : Nat} {w : Word} {m : Memory} (h : Memory.wf m = true) :
    Memory.read (Memory.write m a w) a = w :=
  Memory.read_write_same_from h

/-- A write leaves every other address alone. -/
theorem Memory.read_write_other {a b : Nat} {w : Word} (m : Memory) (hab : b ≠ a) :
    Memory.read (Memory.write m a w) b = Memory.read m b := by
  induction m with
  | nil =>
    unfold Memory.write
    split
    · rfl
    · rw [Memory.read_cons, if_neg hab.symm]
  | cons kv m ih =>
    obtain ⟨k, v⟩ := kv
    unfold Memory.write
    split
    · split
      · rfl
      · rw [Memory.read_cons, if_neg hab.symm]
    · split
      · next hk =>
        have hkb : k ≠ b := by omega
        split
        · rw [Memory.read_cons, if_neg hkb]
        · rw [Memory.read_cons, Memory.read_cons, if_neg hab.symm, if_neg hkb]
      · rw [Memory.read_cons, Memory.read_cons, ih]

theorem Memory.wfFrom_ofWordsFrom (a : Nat) (ws : List Word) (h : a + ws.length ≤ 64) :
    Memory.wfFrom a (Memory.ofWordsFrom a ws) = true := by
  induction ws generalizing a with
  | nil => rfl
  | cons w ws ih =>
    simp only [List.length_cons] at h
    have hrest := ih (a + 1) (by omega)
    unfold Memory.ofWordsFrom
    split
    · exact Memory.wfFrom_mono hrest (by omega)
    · exact (Memory.wfFrom_cons ..).2 ⟨le_rfl, by omega, ‹_›, hrest⟩

/-- The store of a program that fits is canonical. -/
theorem Memory.wf_ofWords (ws : List Word) (h : programFits ws = true) : Memory.wf (Memory.ofWords ws) = true :=
  Memory.wfFrom_ofWordsFrom 0 ws (by simpa [programFits] using h)

@[simp] theorem Memory.wf_nil : Memory.wf [] = true := rfl

/-- Storing a word where the next cycle fetches keeps the canonical form. -/
theorem State.placeWord_wf {s : State} (w : Word) (h : Memory.wf s.prog = true) :
    Memory.wf (s.placeWord w).prog = true :=
  Memory.wf_write h s.pc.isLt

/-- After a word is placed, the next cycle fetches it. -/
theorem State.fetch_placeWord {s : State} (w : Word) (h : Memory.wf s.prog = true) : (s.placeWord w).fetch = w :=
  Memory.read_write_same h

end Sys2Proof.Machine
end

