-- ==== Sys2Proof/Laws/State.lean ====
section
/-! SUPPORT. What each named update of the state leaves in each field: one lemma per field per update. -/

namespace Sys2Proof.Machine

variable (s : State)

/-! `setPc` -/

@[simp] theorem State.setPc_pc (a : Addr) : (s.setPc a).pc = a := rfl
@[simp] theorem State.setPc_reg0 (a : Addr) : (s.setPc a).reg0 = s.reg0 := rfl
@[simp] theorem State.setPc_reg1 (a : Addr) : (s.setPc a).reg1 = s.reg1 := rfl
@[simp] theorem State.setPc_stack (a : Addr) : (s.setPc a).stack = s.stack := rfl
@[simp] theorem State.setPc_output (a : Addr) : (s.setPc a).output = s.output := rfl
@[simp] theorem State.setPc_input (a : Addr) : (s.setPc a).input = s.input := rfl
@[simp] theorem State.setPc_inputs (a : Addr) : (s.setPc a).inputs = s.inputs := rfl
@[simp] theorem State.setPc_prog (a : Addr) : (s.setPc a).prog = s.prog := rfl
@[simp] theorem State.setPc_status (a : Addr) : (s.setPc a).status = s.status := rfl

/-! `writeOutput` -/

@[simp] theorem State.writeOutput_pc (v : Byte) : (s.writeOutput v).pc = s.pc := rfl
@[simp] theorem State.writeOutput_reg0 (v : Byte) : (s.writeOutput v).reg0 = s.reg0 := rfl
@[simp] theorem State.writeOutput_reg1 (v : Byte) : (s.writeOutput v).reg1 = s.reg1 := rfl
@[simp] theorem State.writeOutput_stack (v : Byte) : (s.writeOutput v).stack = s.stack := rfl
@[simp] theorem State.writeOutput_output (v : Byte) : (s.writeOutput v).output = v := rfl
@[simp] theorem State.writeOutput_input (v : Byte) : (s.writeOutput v).input = s.input := rfl
@[simp] theorem State.writeOutput_inputs (v : Byte) : (s.writeOutput v).inputs = s.inputs := rfl
@[simp] theorem State.writeOutput_prog (v : Byte) : (s.writeOutput v).prog = s.prog := rfl
@[simp] theorem State.writeOutput_status (v : Byte) : (s.writeOutput v).status = s.status := rfl

/-! `setStack` -/

@[simp] theorem State.setStack_pc (k : Stack) : (s.setStack k).pc = s.pc := rfl
@[simp] theorem State.setStack_reg0 (k : Stack) : (s.setStack k).reg0 = s.reg0 := rfl
@[simp] theorem State.setStack_reg1 (k : Stack) : (s.setStack k).reg1 = s.reg1 := rfl
@[simp] theorem State.setStack_stack (k : Stack) : (s.setStack k).stack = k := rfl
@[simp] theorem State.setStack_output (k : Stack) : (s.setStack k).output = s.output := rfl
@[simp] theorem State.setStack_input (k : Stack) : (s.setStack k).input = s.input := rfl
@[simp] theorem State.setStack_inputs (k : Stack) : (s.setStack k).inputs = s.inputs := rfl
@[simp] theorem State.setStack_prog (k : Stack) : (s.setStack k).prog = s.prog := rfl
@[simp] theorem State.setStack_status (k : Stack) : (s.setStack k).status = s.status := rfl

/-! `setStatus` -/

@[simp] theorem State.setStatus_pc (m : Status) : (s.setStatus m).pc = s.pc := rfl
@[simp] theorem State.setStatus_reg0 (m : Status) : (s.setStatus m).reg0 = s.reg0 := rfl
@[simp] theorem State.setStatus_reg1 (m : Status) : (s.setStatus m).reg1 = s.reg1 := rfl
@[simp] theorem State.setStatus_stack (m : Status) : (s.setStatus m).stack = s.stack := rfl
@[simp] theorem State.setStatus_output (m : Status) : (s.setStatus m).output = s.output := rfl
@[simp] theorem State.setStatus_input (m : Status) : (s.setStatus m).input = s.input := rfl
@[simp] theorem State.setStatus_inputs (m : Status) : (s.setStatus m).inputs = s.inputs := rfl
@[simp] theorem State.setStatus_prog (m : Status) : (s.setStatus m).prog = s.prog := rfl
@[simp] theorem State.setStatus_status (m : Status) : (s.setStatus m).status = m := rfl

/-! `setProg` -/

@[simp] theorem State.setProg_pc (m : Memory) : (s.setProg m).pc = s.pc := rfl
@[simp] theorem State.setProg_reg0 (m : Memory) : (s.setProg m).reg0 = s.reg0 := rfl
@[simp] theorem State.setProg_reg1 (m : Memory) : (s.setProg m).reg1 = s.reg1 := rfl
@[simp] theorem State.setProg_stack (m : Memory) : (s.setProg m).stack = s.stack := rfl
@[simp] theorem State.setProg_output (m : Memory) : (s.setProg m).output = s.output := rfl
@[simp] theorem State.setProg_input (m : Memory) : (s.setProg m).input = s.input := rfl
@[simp] theorem State.setProg_inputs (m : Memory) : (s.setProg m).inputs = s.inputs := rfl
@[simp] theorem State.setProg_prog (m : Memory) : (s.setProg m).prog = m := rfl
@[simp] theorem State.setProg_status (m : Memory) : (s.setProg m).status = s.status := rfl

/-! `driveInput` -/

@[simp] theorem State.driveInput_pc (v : Byte) : (s.driveInput v).pc = s.pc := rfl
@[simp] theorem State.driveInput_reg0 (v : Byte) : (s.driveInput v).reg0 = s.reg0 := rfl
@[simp] theorem State.driveInput_reg1 (v : Byte) : (s.driveInput v).reg1 = s.reg1 := rfl
@[simp] theorem State.driveInput_stack (v : Byte) : (s.driveInput v).stack = s.stack := rfl
@[simp] theorem State.driveInput_output (v : Byte) : (s.driveInput v).output = s.output := rfl
@[simp] theorem State.driveInput_input (v : Byte) : (s.driveInput v).input = v := rfl
@[simp] theorem State.driveInput_inputs (v : Byte) : (s.driveInput v).inputs = s.inputs := rfl
@[simp] theorem State.driveInput_prog (v : Byte) : (s.driveInput v).prog = s.prog := rfl
@[simp] theorem State.driveInput_status (v : Byte) : (s.driveInput v).status = s.status := rfl

/-! `placeWord` -/

@[simp] theorem State.placeWord_pc (w : Word) : (s.placeWord w).pc = s.pc := rfl
@[simp] theorem State.placeWord_reg0 (w : Word) : (s.placeWord w).reg0 = s.reg0 := rfl
@[simp] theorem State.placeWord_reg1 (w : Word) : (s.placeWord w).reg1 = s.reg1 := rfl
@[simp] theorem State.placeWord_stack (w : Word) : (s.placeWord w).stack = s.stack := rfl
@[simp] theorem State.placeWord_output (w : Word) : (s.placeWord w).output = s.output := rfl
@[simp] theorem State.placeWord_input (w : Word) : (s.placeWord w).input = s.input := rfl
@[simp] theorem State.placeWord_inputs (w : Word) : (s.placeWord w).inputs = s.inputs := rfl
@[simp] theorem State.placeWord_prog (w : Word) : (s.placeWord w).prog = Memory.write s.prog s.pc.toNat w := rfl
@[simp] theorem State.placeWord_status (w : Word) : (s.placeWord w).status = .running := rfl

/-! `resetCore` -/

@[simp] theorem State.resetCore_pc (c : Config) : (s.resetCore c).pc = 0#6 := rfl
@[simp] theorem State.resetCore_reg0 (c : Config) : (s.resetCore c).reg0 = c.regReset := rfl
@[simp] theorem State.resetCore_reg1 (c : Config) : (s.resetCore c).reg1 = c.regReset := rfl
@[simp] theorem State.resetCore_stack (c : Config) : (s.resetCore c).stack = ⟨0#8, 0#8, 0#8, 0#8⟩ := rfl
@[simp] theorem State.resetCore_output (c : Config) : (s.resetCore c).output = 0#8 := rfl
@[simp] theorem State.resetCore_input (c : Config) : (s.resetCore c).input = s.input := rfl
@[simp] theorem State.resetCore_inputs (c : Config) : (s.resetCore c).inputs = s.inputs := rfl
@[simp] theorem State.resetCore_prog (c : Config) : (s.resetCore c).prog = s.prog := rfl
@[simp] theorem State.resetCore_status (c : Config) : (s.resetCore c).status = .running := rfl

/-! `writeReg` -/

@[simp] theorem State.writeReg_pc (d : RegName) (v : Byte) : (s.writeReg d v).pc = s.pc := by
  cases d <;> rfl
@[simp] theorem State.writeReg_stack (d : RegName) (v : Byte) : (s.writeReg d v).stack = s.stack := by
  cases d <;> rfl
@[simp] theorem State.writeReg_output (d : RegName) (v : Byte) : (s.writeReg d v).output = s.output := by
  cases d <;> rfl
@[simp] theorem State.writeReg_input (d : RegName) (v : Byte) : (s.writeReg d v).input = s.input := by
  cases d <;> rfl
@[simp] theorem State.writeReg_inputs (d : RegName) (v : Byte) : (s.writeReg d v).inputs = s.inputs := by
  cases d <;> rfl
@[simp] theorem State.writeReg_prog (d : RegName) (v : Byte) : (s.writeReg d v).prog = s.prog := by
  cases d <;> rfl
@[simp] theorem State.writeReg_status (d : RegName) (v : Byte) : (s.writeReg d v).status = s.status := by
  cases d <;> rfl
@[simp] theorem State.writeReg_reg0_reg0 (v : Byte) : (s.writeReg .reg0 v).reg0 = v := rfl
@[simp] theorem State.writeReg_reg0_reg1 (v : Byte) : (s.writeReg .reg0 v).reg1 = s.reg1 := rfl
@[simp] theorem State.writeReg_reg1_reg0 (v : Byte) : (s.writeReg .reg1 v).reg0 = s.reg0 := rfl
@[simp] theorem State.writeReg_reg1_reg1 (v : Byte) : (s.writeReg .reg1 v).reg1 = v := rfl

/-! `envDrive` -/

@[simp] theorem State.envDrive_pc : s.envDrive.pc = s.pc := by
  unfold State.envDrive; split <;> rfl
@[simp] theorem State.envDrive_reg0 : s.envDrive.reg0 = s.reg0 := by
  unfold State.envDrive; split <;> rfl
@[simp] theorem State.envDrive_reg1 : s.envDrive.reg1 = s.reg1 := by
  unfold State.envDrive; split <;> rfl
@[simp] theorem State.envDrive_stack : s.envDrive.stack = s.stack := by
  unfold State.envDrive; split <;> rfl
@[simp] theorem State.envDrive_output : s.envDrive.output = s.output := by
  unfold State.envDrive; split <;> rfl
@[simp] theorem State.envDrive_prog : s.envDrive.prog = s.prog := by
  unfold State.envDrive; split <;> rfl
@[simp] theorem State.envDrive_status : s.envDrive.status = s.status := by
  unfold State.envDrive; split <;> rfl
@[simp] theorem State.envDrive_input : s.envDrive.input = s.inputs.headD s.input := by
  unfold State.envDrive; split <;> simp [*]
@[simp] theorem State.envDrive_inputs : s.envDrive.inputs = s.inputs.tail := by
  unfold State.envDrive; split <;> simp [*]

/-- With no value listed, the environment leaves the state alone. -/
theorem State.envDrive_of_nil (h : s.inputs = []) : s.envDrive = s := by
  unfold State.envDrive; rw [h]

/-! Reading a register after an update. -/

@[simp] theorem State.readReg_writeReg_same (d : RegName) (v : Byte) : (s.writeReg d v).readReg d = v := by
  cases d <;> rfl

/-- A register write leaves the other register alone (`10_state.md` R23). -/
theorem State.readReg_writeReg_other (d e : RegName) (v : Byte) (h : e ≠ d) :
    (s.writeReg d v).readReg e = s.readReg e := by
  cases d <;> cases e <;> first | rfl | exact absurd rfl h

@[simp] theorem State.writeReg_writeReg (d : RegName) (v w : Byte) :
    (s.writeReg d v).writeReg d w = s.writeReg d w := by
  cases d <;> rfl

@[simp] theorem State.readReg_setPc (a : Addr) (d : RegName) : (s.setPc a).readReg d = s.readReg d := by
  cases d <;> rfl
@[simp] theorem State.readReg_writeOutput (v : Byte) (d : RegName) : (s.writeOutput v).readReg d = s.readReg d := by
  cases d <;> rfl
@[simp] theorem State.readReg_setStack (k : Stack) (d : RegName) : (s.setStack k).readReg d = s.readReg d := by
  cases d <;> rfl
@[simp] theorem State.readReg_setStatus (m : Status) (d : RegName) : (s.setStatus m).readReg d = s.readReg d := by
  cases d <;> rfl
@[simp] theorem State.readReg_setProg (m : Memory) (d : RegName) : (s.setProg m).readReg d = s.readReg d := by
  cases d <;> rfl
@[simp] theorem State.readReg_driveInput (v : Byte) (d : RegName) : (s.driveInput v).readReg d = s.readReg d := by
  cases d <;> rfl
@[simp] theorem State.readReg_placeWord (w : Word) (d : RegName) : (s.placeWord w).readReg d = s.readReg d := by
  cases d <;> rfl
@[simp] theorem State.readReg_envDrive (d : RegName) : s.envDrive.readReg d = s.readReg d := by
  cases d <;> simp [State.readReg]

end Sys2Proof.Machine
end

