-- ==== Sys2Proof/Laws/Ops.lean ====
section
/-! SUPPORT. What each shared operation can do: the commit of a cycle under each range policy, `onNext`, the frame of a
cycle, and the engine's write steps. -/

namespace Sys2Proof.Machine

@[simp] theorem onNext_next (f : State → State) (t : State) : onNext f (.next t) = .next (f t) := rfl
@[simp] theorem onNext_fault (f : State → State) (r : Fault) : onNext f (.fault r) = .fault r := rfl
@[simp] theorem onNext_refused (f : State → State) (r : Refusal) : onNext f (.refused r) = .refused r := rfl

/-- A next state of `onNext f o` is `f` of a next state of `o`. -/
theorem onNext_eq_next {f : State → State} {o : Host.Outcome State Fault Refusal} {t : State}
    (h : onNext f o = .next t) : ∃ u, o = .next u ∧ t = f u := by
  cases o with
  | next u => exact ⟨u, rfl, by simpa [eq_comm] using h⟩
  | fault r => cases h
  | refused r => cases h

/-- A fault of `onNext f o` is a fault of `o`. -/
theorem onNext_eq_fault {f : State → State} {o : Host.Outcome State Fault Refusal} {r : Fault} :
    onNext f o = .fault r ↔ o = .fault r := by
  cases o <;> simp

/-- A next value in 0..63 is committed, whatever the policy (`43_execution_cycle.md` R172). -/
theorem commit_of_le {p : PcRangePolicy} {n : Nat} {t : State} (h : n ≤ 63) :
    commit p n t = .next (t.setPc (BitVec.ofNat 6 n)) :=
  if_pos h

/-- Under the default policy a next value above 63 faults (`43_execution_cycle.md` R171). -/
theorem commit_fault_of_gt {n : Nat} {t : State} (h : 63 < n) : commit .fault n t = .fault (.pcOutOfRange t.pc n) :=
  if_neg (by omega)

theorem commit_faultLate_of_gt {n : Nat} {t : State} (h : 63 < n) :
    commit .faultLate n t = .next (t.setStatus (.faulted (.pcOutOfRange t.pc n))) :=
  if_neg (by omega)

theorem commit_wrap {n : Nat} {t : State} : commit .wrap n t = .next (t.setPc (BitVec.ofNat 6 n)) :=
  ite_self _

/-- This model's commit of a next value in range. -/
theorem finish_of_le {n : Nat} {t : State} (h : n ≤ 63) : finish n t = .next (t.setPc (BitVec.ofNat 6 n)) :=
  commit_of_le h

/-- This model's commit of a next value out of range. -/
theorem finish_of_gt {n : Nat} {t : State} (h : 63 < n) : finish n t = .fault (.pcOutOfRange t.pc n) :=
  commit_fault_of_gt h

/-- All a commit can do in this model: move the pc to the next value in range, or fault. -/
theorem finish_cases (n : Nat) (t : State) :
    (n ≤ 63 ∧ finish n t = .next (t.setPc (BitVec.ofNat 6 n))) ∨
      (63 < n ∧ finish n t = .fault (.pcOutOfRange t.pc n)) := by
  rcases Nat.lt_or_ge 63 n with h | h
  · exact .inr ⟨h, finish_of_gt h⟩
  · exact .inl ⟨h, finish_of_le h⟩

/-- A commit that answers a next state moved the pc and nothing else. -/
theorem finish_eq_next {n : Nat} {t u : State} (h : finish n t = .next u) :
    n ≤ 63 ∧ u = t.setPc (BitVec.ofNat 6 n) := by
  rcases finish_cases n t with ⟨hn, e⟩ | ⟨_, e⟩ <;> rw [e] at h
  · exact ⟨hn, by simpa [eq_comm] using h⟩
  · cases h

/-- The value of a committed pc is the next value itself. -/
theorem toNat_ofNat_six {n : Nat} (h : n ≤ 63) : (BitVec.ofNat 6 n).toNat = n := by
  simp [Nat.mod_eq_of_lt (show n < 64 by omega)]

/-- A pushed return address is pc + 1, never cut (`10_state.md` R32). -/
@[simp] theorem State.returnAddress_toNat (s : State) : s.returnAddress.toNat = s.pc.toNat + 1 := by
  have := s.pc.isLt
  simp only [State.returnAddress, State.pcPlus1, BitVec.toNat_ofNat]
  omega

@[simp] theorem writeBack_true (d : RegName) (v : Byte) (s : State) : writeBack true d v s = s.writeReg d v := rfl
@[simp] theorem writeBack_false (d : RegName) (v : Byte) (s : State) : writeBack false d v s = s := rfl
@[simp] theorem latchOutput_true (v : Byte) (s : State) : latchOutput true v s = s.writeOutput v := rfl
@[simp] theorem latchOutput_false (v : Byte) (s : State) : latchOutput false v s = s := rfl
@[simp] theorem applyStackOp_hold (s : State) : applyStackOp .hold s = s := rfl
@[simp] theorem applyStackOp_push (s : State) :
    applyStackOp .push s = s.setStack (s.stack.push s.returnAddress) := rfl
@[simp] theorem applyStackOp_pop (s : State) : applyStackOp .pop s = s.setStack s.stack.pop.2 := rfl

/-- What a running core's cycle does with the decoder's answer. -/
theorem runCycle_running {run : Instr → State → Host.Outcome State Fault Refusal} {s : State}
    (h : s.status = .running) :
    runCycle run s = match decode s.fetch with
      | .error r => .fault (s.decodeFault r)
      | .ok i => onNext State.envDrive (run i s) := by
  simp only [runCycle, h]; rfl

/-- A cycle that answers a next state ran a decoded instruction in a running core. -/
theorem step_eq_next {s t : State} (h : step s = .next t) :
    s.status = .running ∧ ∃ i u, decode s.fetch = .ok i ∧ exec i s = .next u ∧ t = u.envDrive := by
  unfold step runCycle at h
  split at h
  · cases h
  · cases h
  · next hs =>
    split at h
    · cases h
    · next i hi =>
      obtain ⟨u, hu, rfl⟩ := onNext_eq_next h
      exact ⟨hs, i, u, hi, hu, rfl⟩

end Sys2Proof.Machine
end

