-- ==== Sys2Proof/Laws/Exec.lean ====
section
/-! SUPPORT. What every instruction can do, said once: exec is a commit of the instruction's next address over its writes.
With it, what a cycle leaves alone, and that a placed word is the one the next cycle runs. -/

namespace Sys2Proof.Machine

/-- The state after an instruction's writes, the pc still that of the instruction. -/
def instrWrites (i : Instr) (s : State) : State :=
  match i with
  | .call _ _ => s.setStack (s.stack.push s.returnAddress)
  | .ret _ _ => s.setStack s.stack.pop.2
  | .bz _ _ | .b _ _ => s
  | .add d x => s.writeReg d (alu .add x (s.readReg d)).result
  | .sub d x => s.writeReg d (alu .sub x (s.readReg d)).result
  | .and d x => s.writeReg d (alu .and x (s.readReg d)).result
  | .ld d x => s.writeReg d x
  | .xor d x => s.writeReg d (alu .xor x (s.readReg d)).result
  | .out d _ => s.writeOutput (s.readReg d)
  | .dout _ x => s.writeOutput x
  | .inp d _ => s.writeReg d s.input
  | .inXor d x => s.writeReg d (alu .xor x s.input).result

/-- Every meaning is a commit of its next address over its writes. -/
theorem exec_eq_finish (i : Instr) (s : State) : exec i s = finish (nextAddress i s) (instrWrites i s) := by
  cases i with
  | bz d x =>
    cases d <;> simp [exec, execBz, nextAddress, instrWrites, alu, zeroOut, State.readReg, State.pcPlus1]
  | _ =>
    simp [exec, execCall, execRet, execB, execAdd, execSub, execAnd, execLd, execXor, execOut, execIn, execDout,
      execInXor, nextAddress, instrWrites, finishSequential, State.pcPlus1, alu, aluResult, Stack.top]

@[simp] theorem instrWrites_pc (i : Instr) (s : State) : (instrWrites i s).pc = s.pc := by
  cases i <;> simp [instrWrites]
@[simp] theorem instrWrites_input (i : Instr) (s : State) : (instrWrites i s).input = s.input := by
  cases i <;> simp [instrWrites]
@[simp] theorem instrWrites_inputs (i : Instr) (s : State) : (instrWrites i s).inputs = s.inputs := by
  cases i <;> simp [instrWrites]
@[simp] theorem instrWrites_prog (i : Instr) (s : State) : (instrWrites i s).prog = s.prog := by
  cases i <;> simp [instrWrites]
@[simp] theorem instrWrites_status (i : Instr) (s : State) : (instrWrites i s).status = s.status := by
  cases i <;> simp [instrWrites]

/-- The inversion of exec: a next state is the instruction's writes with the pc at its next address, which is in range. -/
theorem exec_eq_next {i : Instr} {s t : State} (h : exec i s = .next t) :
    nextAddress i s ≤ 63 ∧ t = (instrWrites i s).setPc (BitVec.ofNat 6 (nextAddress i s)) := by
  rw [exec_eq_finish] at h
  exact finish_eq_next h

/-- A state whose step is itself stays for any number of cycles. -/
theorem run_of_fixedPoint (M : Host.Core) (s : M.State) (h : M.step s = .next s) (k : Nat) : M.run k s = .next s := by
  induction k with
  | zero => rfl
  | succ k ih => rw [Host.Core.run, h]; exact ih

theorem Stack.bounded_iff (k : Stack) :
    k.bounded = true ↔
      k.slot0.toNat ≤ 64 ∧ k.slot1.toNat ≤ 64 ∧ k.slot2.toNat ≤ 64 ∧ k.slot3.toNat ≤ 64 := by
  simp [Stack.bounded, and_assoc]

theorem State.inv_iff (s : State) : s.inv = true ↔ Memory.wf s.prog = true ∧ s.stack.bounded = true := by
  simp [State.inv]

/-- A placed word that decodes is what the next step runs (log entry 2). -/
theorem step_withFetchWord {s : State} {n w : Nat} {i : Instr} (hm : Memory.wf s.prog = true)
    (hd : decodeTableWord n w = some i) :
    step (s.withFetchWord n w) = onNext State.envDrive (exec i (s.withFetchWord n w)) := by
  unfold decodeTableWord at hd
  split at hd
  · have hf : (s.withFetchWord n w).fetch = BitVec.ofNat 13 w := State.fetch_placeWord _ hm
    cases hdec : decode (BitVec.ofNat 13 w) with
    | error r => rw [hdec] at hd; cases hd
    | ok j =>
      rw [hdec] at hd
      cases hd
      rw [step, runCycle_running (show (s.withFetchWord n w).status = .running from rfl), hf, hdec]
  · cases hd

end Sys2Proof.Machine
end

