-- ==== Sys2Proof/Laws/PerInstr.lean ====
section
/-! SUPPORT. Statements for all instructions, one lemma per constructor. Family `Fields`: an instruction is its mnemonic
and its two fields (`30_encoding.md` R76), and it is well-formed under this model's `OPMAP` (R75). -/

namespace Sys2Proof.Laws.Fields

/-- An instruction is rebuilt from its mnemonic and fields, and has an opcode in 0..12. -/
def Statement (i : Instr) : Prop :=
  Instr.ofFields i.mnemonic i.dest i.data = i ∧ i.wellFormed Config.machine = true ∧
    (opcodeOf Config.machine i.mnemonic).toNat ≤ 12

theorem call (d : RegName) (x : Byte) : Statement (.call d x) := ⟨rfl, rfl, Nat.le_of_ble_eq_true rfl⟩
theorem ret (d : RegName) (x : Byte) : Statement (.ret d x) := ⟨rfl, rfl, Nat.le_of_ble_eq_true rfl⟩
theorem bz (d : RegName) (x : Byte) : Statement (.bz d x) := ⟨rfl, rfl, Nat.le_of_ble_eq_true rfl⟩
theorem b (d : RegName) (x : Byte) : Statement (.b d x) := ⟨rfl, rfl, Nat.le_of_ble_eq_true rfl⟩
theorem add (d : RegName) (x : Byte) : Statement (.add d x) := ⟨rfl, rfl, Nat.le_of_ble_eq_true rfl⟩
theorem sub (d : RegName) (x : Byte) : Statement (.sub d x) := ⟨rfl, rfl, Nat.le_of_ble_eq_true rfl⟩
theorem and (d : RegName) (x : Byte) : Statement (.and d x) := ⟨rfl, rfl, Nat.le_of_ble_eq_true rfl⟩
theorem ld (d : RegName) (x : Byte) : Statement (.ld d x) := ⟨rfl, rfl, Nat.le_of_ble_eq_true rfl⟩
theorem out (d : RegName) (x : Byte) : Statement (.out d x) := ⟨rfl, rfl, Nat.le_of_ble_eq_true rfl⟩
theorem inp (d : RegName) (x : Byte) : Statement (.inp d x) := ⟨rfl, rfl, Nat.le_of_ble_eq_true rfl⟩
theorem dout (d : RegName) (x : Byte) : Statement (.dout d x) := ⟨rfl, rfl, Nat.le_of_ble_eq_true rfl⟩
theorem xor (d : RegName) (x : Byte) : Statement (.xor d x) := ⟨rfl, rfl, Nat.le_of_ble_eq_true rfl⟩
theorem inXor (d : RegName) (x : Byte) : Statement (.inXor d x) := ⟨rfl, rfl, Nat.le_of_ble_eq_true rfl⟩

end Sys2Proof.Laws.Fields
end

