-- ==== Sys2Proof/Tests/Slice0.lean ====
section
/-! SUPPORT. The model's own tests: decoding of words written out from the spec's encodings, the checks of WellFormed on
terms they refuse, one or two cycles per instruction with the results `95_test_vectors.md` gives, and for every statement
with hypotheses a state and operands that meet them. -/

namespace Sys2Proof.Tests

open Sys2Proof.Machine

/-- The outcome is this next state. -/
def answers (o : Host.Outcome State Fault Refusal) (t : State) : Bool :=
  match o with
  | .next u => decide (u = t)
  | .fault _ | .refused _ => false

/-- The outcome is this fault. -/
def faultsWith (o : Host.Outcome State Fault Refusal) (f : Fault) : Bool :=
  match o with
  | .fault g => decide (g = f)
  | .next _ | .refused _ => false

/-- A running state with one word, at the pc. -/
def st (pc : Addr) (r0 r1 : Byte) (k : Stack) (out : Byte) (w : Word) : State where
  pc := pc
  reg0 := r0
  reg1 := r1
  stack := k
  output := out
  input := 0#8
  inputs := []
  prog := Memory.write [] pc.toNat w
  status := .running

/-- The empty stack. -/
def empty : Stack := ⟨0#8, 0#8, 0#8, 0#8⟩

/-! WellFormed: an ill-formed term for each check. -/

theorem test_opmap_refuses_twice_the_same :
    opmapWf [.call, .call, .bz, .b, .add, .sub, .and, .ld, .out, .inp, .dout, .xor, .inXor] = false := by decide
theorem test_opmap_refuses_a_missing_mnemonic :
    opmapWf [.call, .ret, .bz, .b, .add, .sub, .and, .ld, .out, .inp, .dout, .xor] = false := by decide
theorem test_packing_refuses_overlapping_fields : CwPacking.wf { CwPacking.byRow with aluOpLsb := 5 } = false := by decide
theorem test_packing_refuses_a_bit_above_nine : CwPacking.wf { CwPacking.byRow with regWrLsb := 10 } = false := by decide
theorem test_packing_refuses_missing_codes : CwPacking.wf { CwPacking.byRow with aluSrcs := [.reg] } = false := by decide
theorem test_config_refuses_its_bad_opmap : Config.wf { Config.machine with opmap := [] } = false := by decide
theorem test_instr_without_opcode_refused :
    Instr.wellFormed { Config.machine with opmap := [.call] } (.ret .reg0 0#8) = false := by decide
theorem test_noncanonical_forms_refused :
    ((Instr.call .reg1 5#8).canonical || (Instr.ret .reg1 0#8).canonical || (Instr.ret .reg0 1#8).canonical ||
      (Instr.out .reg0 1#8).canonical) = false := by decide
theorem test_program_of_65_words_refused : programFits (List.replicate 65 0#13) = false := by decide
theorem test_unlawful_input_refused : inputLawful { Config.machine with inputHighZero := true } 0x10#8 = false := by decide
theorem test_memory_refuses_disorder : Memory.wf [(3, 1#13), (2, 1#13)] = false := by decide
theorem test_memory_refuses_zero_word : Memory.wf [(3, 0#13)] = false := by decide
theorem test_memory_refuses_address_64 : Memory.wf [(64, 1#13)] = false := by decide

/-! Decoding: words written out bit by bit from `30_encoding.md` R71, R75 (and `95_test_vectors.md` 2.2). -/

theorem test_decode_call : decode 0b0000000000101#13 = .ok (.call .reg0 5#8) := rfl
theorem test_decode_ret_junk : decode 0b0001111111111#13 = .ok (.ret .reg1 0xFF#8) := rfl
theorem test_decode_bz : decode 0b0010000001010#13 = .ok (.bz .reg0 10#8) := rfl
theorem test_decode_b : decode 0b0011000000001#13 = .ok (.b .reg0 1#8) := rfl
theorem test_decode_add : decode 0b0100000000011#13 = .ok (.add .reg0 3#8) := rfl
theorem test_decode_sub : decode 0b0101010101010#13 = .ok (.sub .reg0 0xAA#8) := rfl
theorem test_decode_and : decode 0b0110100000011#13 = .ok (.and .reg1 3#8) := rfl
theorem test_decode_ld : decode 0b0111000000101#13 = .ok (.ld .reg0 5#8) := rfl
theorem test_decode_out : decode 0b1000100000000#13 = .ok (.out .reg1 0#8) := rfl
theorem test_decode_in : decode 0b1001100000000#13 = .ok (.inp .reg1 0#8) := rfl
theorem test_decode_dout : decode 0b1010101010101#13 = .ok (.dout .reg1 0x55#8) := rfl
theorem test_decode_xor : decode 0b1011011111111#13 = .ok (.xor .reg0 0xFF#8) := rfl
theorem test_decode_in_xor : decode 0b1100111111111#13 = .ok (.inXor .reg1 0xFF#8) := rfl
theorem test_decode_lowest_invalid : decode 0b1101000000000#13 = .error (.invalidOpcode 13#4) := rfl
theorem test_decode_highest_invalid : decode 0b1111111111111#13 = .error (.invalidOpcode 15#4) := rfl
theorem test_encode_in_xor : encode (.inXor .reg0 0x0F#8) = 0x180F#13 := rfl
/-- The other bit order: the word's text is read from bit 0 on (D2). -/
theorem test_decode_other_bit_order :
    decodeWith { Config.machine with wordBitOrder := .firstIsBit0 } 0b1010000001110#13 = .ok (.ld .reg0 5#8) := by decide

/-! The ALU (`95_test_vectors.md` 2.3). -/

theorem test_alu_add_carry : alu .add 0x80#8 0x80#8 = ⟨0x00#8, false⟩ := rfl
theorem test_alu_sub_direction : alu .sub 0x03#8 0x05#8 = ⟨0xFE#8, false⟩ := rfl
theorem test_alu_sub_equal : alu .sub 0x05#8 0x05#8 = ⟨0x00#8, false⟩ := rfl
theorem test_alu_sub_zero : alu .sub 0x00#8 0x00#8 = ⟨0x00#8, true⟩ := rfl
theorem test_alu_and : alu .and 0xF0#8 0x0F#8 = ⟨0x00#8, true⟩ := rfl
theorem test_alu_xor : alu .xor 0x03#8 0x0A#8 = ⟨0x09#8, false⟩ := rfl
theorem test_alu_zero : alu .zero 0x00#8 0x12#8 = ⟨0x00#8, true⟩ := rfl

/-! One cycle per row of `95_test_vectors.md` 2.5. -/

theorem test_call_full_stack :
    let s := st 20#6 1#8 2#8 ⟨25#8, 17#8, 9#8, 1#8⟩ 7#8 0x0009#13
    answers (step s) { s with pc := 9#6, stack := ⟨21#8, 25#8, 17#8, 9#8⟩ } = true := by decide
theorem test_call_out_of_range :
    faultsWith (step (st 3#6 0#8 0#8 empty 0#8 0x00C8#13)) (.pcOutOfRange 3#6 200) = true := by decide
theorem test_ret_junk_fields :
    let s := st 5#6 0#8 0#8 ⟨12#8, 30#8, 0#8, 0#8⟩ 0#8 0x03FF#13
    answers (step s) { s with pc := 12#6, stack := ⟨30#8, 0#8, 0#8, 0#8⟩ } = true := by decide
theorem test_ret_top_64 :
    faultsWith (step (st 9#6 0#8 0#8 ⟨64#8, 2#8, 0#8, 0#8⟩ 0#8 0x0200#13)) (.pcOutOfRange 9#6 64) = true := by decide
theorem test_bz_bad_target_unused :
    let s := st 4#6 1#8 0#8 empty 0#8 0x04C8#13
    answers (step s) { s with pc := 5#6 } = true := by decide
theorem test_bz_taken_at_63 :
    let s := st 63#6 0#8 0#8 empty 0#8 0x0400#13
    answers (step s) { s with pc := 0#6 } = true := by decide
theorem test_b_64 : faultsWith (step (st 0#6 0#8 0#8 empty 0#8 0x0640#13)) (.pcOutOfRange 0#6 64) = true := by decide
theorem test_b_itself :
    let s := st 6#6 9#8 8#8 ⟨3#8, 0#8, 0#8, 0#8⟩ 0xAA#8 0x0606#13
    answers (step s) s = true := by decide
theorem test_add_wraps :
    let s := st 1#6 5#8 0xFF#8 empty 0#8 0x0901#13
    answers (step s) { s with pc := 2#6, reg1 := 0#8 } = true := by decide
theorem test_add_at_63 :
    faultsWith (step (st 63#6 1#8 0#8 empty 0#8 0x0801#13)) (.pcOutOfRange 63#6 64) = true := by decide
theorem test_sub_direction :
    let s := st 4#6 5#8 0#8 empty 0#8 0x0A03#13
    answers (step s) { s with pc := 5#6, reg0 := 0xFE#8 } = true := by decide
theorem test_sub_negates_reg1 :
    let s := st 4#6 0#8 2#8 empty 0#8 0x0B00#13
    answers (step s) { s with pc := 5#6, reg1 := 0xFE#8 } = true := by decide
theorem test_and_masks :
    let s := st 2#6 0x3C#8 0#8 empty 0#8 0x0CF0#13
    answers (step s) { s with pc := 3#6, reg0 := 0x30#8 } = true := by decide
theorem test_ld_reg1 :
    let s := st 0#6 1#8 2#8 empty 0#8 0x0FFF#13
    answers (step s) { s with pc := 1#6, reg1 := 0xFF#8 } = true := by decide
theorem test_xor_complements :
    let s := st 3#6 0x0A#8 0#8 empty 0#8 0x16FF#13
    answers (step s) { s with pc := 4#6, reg0 := 0xF5#8 } = true := by decide
theorem test_out_reg1_junk_data :
    let s := st 3#6 2#8 7#8 empty 0x55#8 0x11FF#13
    answers (step s) { s with pc := 4#6, output := 7#8 } = true := by decide
theorem test_in_all_eight_bits :
    let s := { st 0#6 1#8 2#8 empty 0#8 0x1277#13 with input := 0xF3#8 }
    answers (step s) { s with pc := 1#6, reg0 := 0xF3#8 } = true := by decide
theorem test_dout_with_dest_1 :
    let s := st 5#6 1#8 2#8 empty 3#8 0x1500#13
    answers (step s) { s with pc := 6#6, output := 0#8 } = true := by decide
theorem test_in_xor_ignores_old_value :
    let s := { st 1#6 0x99#8 2#8 empty 0#8 0x180F#13 with input := 5#8 }
    answers (step s) { s with pc := 2#6, reg0 := 0x0A#8 } = true := by decide
theorem test_invalid_opcode :
    faultsWith (step (st 1#6 1#8 2#8 ⟨3#8, 0#8, 0#8, 0#8⟩ 4#8 0x1C05#13)) (.invalidOpcode 1#6 0x1C05#13) = true := by
  decide
/-- The environment's listed value lands after the cycle (log entry 3; P3 changes INPUT between cycles). -/
theorem test_input_changes_after_the_cycle :
    let s := { st 0#6 0#8 0#8 empty 0#8 0x1300#13 with input := 0x0A#8, inputs := [0x05#8] }
    answers (step s) { s with pc := 1#6, reg1 := 0x0A#8, input := 0x05#8, inputs := [] } = true := by decide
/-- `70_reset_and_hazards.md` R250, with the example state of `95_test_vectors.md` 2.5. -/
theorem test_reset :
    let s := st 41#6 0x77#8 0x1B#8 ⟨33#8, 25#8, 17#8, 9#8⟩ 0xAA#8 0x0200#13
    s.resetCore Config.machine = { s with pc := 0#6, reg0 := 0#8, reg1 := 0#8, stack := empty, output := 0#8 } := rfl
/-- P5 of `95_test_vectors.md` under the late fault policy: OUTPUT is written, the fault comes later. -/
theorem test_fault_late :
    let s := st 63#6 9#8 0#8 empty 0#8 0x1442#13
    answers (cycle { Config.machine with pcRangePolicy := .faultLate } s)
      { s with output := 0x42#8, status := .faulted (.pcOutOfRange 63#6 64) } = true := by decide
/-- P5 under the wrapping policy: OUTPUT is 0x42 and the pc 0. -/
theorem test_wrap :
    let s := st 63#6 9#8 0#8 empty 0#8 0x1442#13
    answers (cycle { Config.machine with pcRangePolicy := .wrap } s) { s with output := 0x42#8, pc := 0#6 } = true := by
  decide
theorem test_pack_ret : packControl .byRow (stage2 .ret) = 0x2B0#10 := rfl
/-- The examples of `30_encoding.md` R84 and R85. -/
theorem test_text_line :
    loadTextLine .firstIsBit12 ['0', '1', '1', '1', ' ', '0', ' ', '0', '0', '0', '0', '0', '1', '0', '1', ' ', '#', '1'] =
      .word 0b0111000000101#13 := by decide
theorem test_hex_line : loadHexLine .firstIsBit12 ['0', 'E', '0', '5'] = .word 0b0111000000101#13 := by decide
theorem test_short_text_line_skipped : loadTextLine .firstIsBit12 ['0', '1'] = .skipped := by decide
theorem test_hex_above_range_undecided : loadHexLine .firstIsBit12 ['2', '0', '0', '0'] = .undecided := by decide
theorem test_table_word_runs :
    answers (step (State.reset.withFetchWord 16 0x0E05)) { State.reset with
      pc := 1#6, reg0 := 5#8, prog := [(0, 0x0E05#13)] } = true := by decide

/-! Witnesses: for each statement with hypotheses, values that meet them, each clause at a boundary. -/

/-- Another admitted configuration: the opcodes in the reverse order and the other bit order. -/
def reversed : Config :=
  { Config.machine with
    opmap := [.inXor, .xor, .dout, .inp, .out, .ld, .and, .sub, .add, .b, .bz, .ret, .call]
    wordBitOrder := .firstIsBit0 }

theorem witness_DecodeSplitsTheWordIntoFields :
    Config.machine.wf = true ∧ Config.machine.wordBitOrder = .firstIsBit12 ∧ (0x19FF#13).toNat / 512 ≤ 12 ∧
      12 < (0x1A00#13).toNat / 512 := by decide
theorem witness_UndefinedOpcodesRaiseInvalidOpcode :
    Config.machine.wf = true ∧ Config.machine.wordBitOrder = .firstIsBit12 ∧
      (st 0#6 0#8 0#8 empty 0#8 0x1A00#13).status = .running ∧
      0x1A00 ≤ (st 0#6 0#8 0#8 empty 0#8 0x1A00#13).fetch.toNat := by decide
theorem witness_DecodeOfEncodeIsIdentity : Config.machine.wf = true ∧ reversed.wf = true := by decide
theorem witness_EncodeOfDecodeIsIdentity :
    reversed.wf = true ∧ decodeWith reversed 0b0000000000000#13 = .ok (.inXor .reg0 0#8) := by decide
theorem witness_ControlTableIsTheSpecs :
    (st 0#6 0#8 0#8 empty 0#8 0x1A00#13).status = .running ∧
      opcodeField (orderWord Config.machine.wordBitOrder (st 0#6 0#8 0#8 empty 0#8 0x1A00#13).fetch) = 0b1101#4 := by
  decide
theorem witness_ControlWordPackingTable :
    (0x300#10).extractLsb' 8 2 = 3#2 ∧ (0x038#10).extractLsb' 3 3 = 7#3 := by decide
theorem witness_ZeroOutputAgainstZeroResult :
    AluOp.xor ≠ .add ∧ AluOp.xor ≠ .sub ∧ (alu .add 0#8 0#8).zero = true ∧ 0xFF#8 ≠ 0#8 ∧ 0x01#8 ≠ 0#8 := by
  decide
theorem witness_RegisterWriteRule : RegName.reg1 ≠ .reg0 := by decide
theorem witness_CallPushesReturnAddressAndJumps : (63#8).toNat ≤ 63 := by decide
theorem witness_RetPopsAndJumpsToTheOldTop :
    (st 5#6 0#8 0#8 ⟨63#8, 0#8, 0#8, 0#8⟩ 0#8 0x0200#13).stack.slot0.toNat ≤ 63 := by decide
theorem witness_BzBranchesOnAZeroRegister :
    ((st 63#6 0#8 1#8 empty 0#8 0x0400#13).readReg .reg0 = 0x00#8 ∧ (63#8).toNat ≤ 63) ∧
      ((st 62#6 0#8 1#8 empty 0#8 0x0500#13).readReg .reg1 ≠ 0x00#8 ∧
        (st 62#6 0#8 1#8 empty 0#8 0x0500#13).pc.toNat < 63) := by decide
theorem witness_BJumpsToData : (63#8).toNat ≤ 63 := by decide
theorem witness_AddWritesTheWrappedSum : (st 62#6 5#8 0#8 empty 0#8 0x0803#13).pc.toNat < 63 := by decide
theorem witness_SubWritesDataMinusRegister : (st 62#6 5#8 0#8 empty 0#8 0x0A03#13).pc.toNat < 63 := by decide
theorem witness_AndXorWriteThePositionalResult : (st 62#6 5#8 0#8 empty 0#8 0x0C03#13).pc.toNat < 63 := by decide
theorem witness_LdWritesData : (st 62#6 5#8 0#8 empty 0#8 0x0E03#13).pc.toNat < 63 := by decide
theorem witness_OutDoutLatchOutput : (st 62#6 5#8 0#8 empty 0#8 0x1000#13).pc.toNat < 63 := by decide
theorem witness_InInXorReadTheInputPort : (st 62#6 5#8 0#8 empty 0#8 0x1200#13).pc.toNat < 63 := by decide
theorem witness_ExecCompletesOrFaultsByNextPc :
    nextAddress (.b .reg0 63#8) State.reset ≤ 63 ∧ 63 < nextAddress (.b .reg0 64#8) State.reset := by decide
theorem witness_RegisterInstructionsFrame :
    (Instr.add .reg1 3#8).mnemonic ∈ [Mnemonic.add, .sub, .and, .ld, .xor, .inp, .inXor] ∧
      exec (.add .reg1 3#8) State.reset = .next { State.reset with pc := 1#6, reg1 := 3#8 } := ⟨by decide, rfl⟩
theorem witness_OutputInstructionsFrame :
    (Instr.dout .reg0 3#8).mnemonic ∈ [Mnemonic.out, .dout] ∧
      exec (.dout .reg0 3#8) State.reset = .next { State.reset with pc := 1#6, output := 3#8 } := ⟨by decide, rfl⟩
theorem witness_ControlTransferFrame :
    ((Instr.call .reg0 3#8).mnemonic ∈ [Mnemonic.call, .ret, .bz, .b] ∧
      exec (.call .reg0 3#8) State.reset = .next { State.reset with pc := 3#6, stack := ⟨1#8, 0#8, 0#8, 0#8⟩ }) ∧
    ((Instr.b .reg0 3#8).mnemonic ∈ [Mnemonic.bz, .b] ∧
      exec (.b .reg0 3#8) State.reset = .next { State.reset with pc := 3#6 }) := ⟨⟨by decide, rfl⟩, by decide, rfl⟩
theorem witness_StepRunsTheDecodedInstruction :
    (State.reset.status = .running ∧
      decode (Memory.read State.reset.prog State.reset.pc.toNat) = .ok (.call .reg0 0#8) ∧
      ∃ t, exec (.call .reg0 0#8) State.reset = .next t) ∧
    (let s := st 63#6 0#8 0#8 empty 0#8 0x0801#13
     s.status = .running ∧ decode (Memory.read s.prog s.pc.toNat) = .ok (.add .reg0 1#8) ∧
      exec (.add .reg0 1#8) s = .fault (.pcOutOfRange 63#6 64)) := ⟨⟨rfl, rfl, _, rfl⟩, rfl, rfl, rfl⟩
theorem witness_FaultPolicyRefinesEveryPolicy :
    Config.machine.pcRangePolicy = .fault ∧ ∃ t, cycle Config.machine State.reset = .next t := ⟨rfl, _, rfl⟩
/-- P5 of `95_test_vectors.md` (DOUT at 63), and a CALL and an `LD`, so that each kind of write meets the range rule. -/
theorem witness_OtherRangePolicies :
    let s := st 63#6 9#8 0#8 empty 0#8 0x1442#13
    let late := { Config.machine with pcRangePolicy := .faultLate }
    (s.status = .running ∧ controlOf late (opcodeField (orderWord late.wordBitOrder s.fetch)) = some (stage2 .dout) ∧
      63 < nextPc (stage2 .dout).addrSrc s.pcPlus1 0x42#8 s.stack.slot0 false) ∧
    (∃ t, cycle late s = .next t ∧ t.status = .faulted (.pcOutOfRange 63#6 64)) ∧
    (let u := st 63#6 9#8 0#8 ⟨1#8, 2#8, 3#8, 4#8⟩ 0#8 0x0040#13
     controlOf late (opcodeField (orderWord late.wordBitOrder u.fetch)) = some (stage2 .call) ∧
      63 < nextPc (stage2 .call).addrSrc u.pcPlus1 64#8 u.stack.slot0 true) ∧
    (let u := st 63#6 9#8 0#8 empty 0#8 0x0F05#13
     controlOf late (opcodeField (orderWord late.wordBitOrder u.fetch)) = some (stage2 .ld) ∧
      63 < nextPc (stage2 .ld).addrSrc u.pcPlus1 5#8 u.stack.slot0 false) ∧
    s.status = .running := ⟨by decide, ⟨_, rfl, rfl⟩, by decide, by decide, rfl⟩
theorem witness_StepNeverWritesStoreOrInput :
    ((∃ t, step State.reset = .next t) ∧ State.reset.inputs = []) ∧
    (let s := { State.reset with inputs := [7#8, 8#8] }
     (∃ t, step s = .next t) ∧ s.inputs = 7#8 :: [8#8]) := ⟨⟨⟨_, rfl⟩, rfl⟩, ⟨_, rfl⟩, rfl⟩
theorem witness_OnlyTheNamedCyclesChangeStackAndOutput :
    (∃ t, State.reset.act .step = some t ∧ t.stack ≠ State.reset.stack) ∧
    (∃ t, (st 3#6 2#8 7#8 empty 0x55#8 0x1000#13).act .step = some t ∧ t.output ≠ 0x55#8) ∧
    (∀ ws, Event.step ≠ .load ws) := ⟨⟨_, rfl, by decide⟩, ⟨_, rfl, by decide⟩, by simp⟩
theorem witness_OnlyRegisterWritersChangeRegisters :
    ∃ t, (st 3#6 2#8 7#8 empty 0x55#8 0x0E05#13).act .step = some t ∧
      t.readReg .reg0 ≠ (st 3#6 2#8 7#8 empty 0x55#8 0x0E05#13).readReg .reg0 := ⟨_, rfl, by decide⟩
theorem witness_OnlyLoadChangesTheProgramStore :
    (∃ t, State.reset.act .step = some t) ∧ (∀ ws, Event.step ≠ .load ws) := ⟨⟨_, rfl⟩, by simp⟩
theorem witness_InputMattersOnlyToInAndInXor :
    (Instr.out .reg0 0#8).mnemonic ∉ [Mnemonic.inp, .inXor] := by decide
theorem witness_RegistersAreReadOnlyByTheReaders :
    ((Instr.ld .reg1 3#8).mnemonic ∈ [Mnemonic.ld, .inp, .inXor] ∧ ∃ t, exec (.ld .reg1 3#8) State.reset = .next t) ∧
    (Instr.dout .reg1 3#8).mnemonic ∈ [Mnemonic.call, .ret, .b, .dout] := ⟨⟨by decide, _, rfl⟩, by decide⟩
theorem witness_FaultsDoNotDependOnInput :
    step (st 63#6 1#8 0#8 empty 0#8 0x1200#13) = .fault (.pcOutOfRange 63#6 64) := rfl
theorem witness_FaultMarkStaysUntilReset :
    let s := st 1#6 1#8 2#8 empty 4#8 0x1FFF#13
    step s = .fault (.invalidOpcode 1#6 0x1FFF#13) ∧
      (∀ e ∈ [Event.driveInput 3#8, .step], e = .step ∨ ∃ v, e = .driveInput v) ∧
      ∃ t, s.actAll [.step, .driveInput 3#8, .step] = some t := ⟨rfl, by simp, _, rfl⟩
theorem witness_StepFaultsExactlyWhenTheRulesSay :
    (st 1#6 1#8 2#8 empty 4#8 0x1A00#13).status = .running ∧
      12 < (st 1#6 1#8 2#8 empty 4#8 0x1A00#13).fetch.toNat / 512 ∧
      decode (st 1#6 1#8 2#8 empty 4#8 0x0640#13).fetch = .ok (.b .reg0 64#8) ∧
      63 < nextAddress (.b .reg0 64#8) (st 1#6 1#8 2#8 empty 4#8 0x0640#13) := by decide
theorem witness_RetFaultsOnlyForATopOfSixtyFour :
    (let s := st 9#6 0#8 0#8 ⟨64#8, 2#8, 0#8, 0#8⟩ 0#8 0x0200#13; s.inv = true ∧ s.stack.slot0 = 64#8) ∧
    (let s := st 9#6 0#8 0#8 ⟨63#8, 64#8, 0#8, 0#8⟩ 0#8 0x0200#13; s.inv = true ∧ s.stack.slot0 ≠ 64#8) := by decide
theorem witness_RetUndoesCall :
    (63#8).toNat ≤ 63 ∧ (st 62#6 0#8 0#8 empty 0#8 0x0000#13).pc.toNat < 63 ∧
      (st 63#6 0#8 0#8 empty 0#8 0x0000#13).pc.toNat = 63 ∧
      ∃ u, exec (.call .reg0 63#8) (st 63#6 0#8 0#8 empty 0#8 0x0000#13) = .next u ∧ u.stack = ⟨64#8, 0#8, 0#8, 0#8⟩ :=
  ⟨by decide, by decide, by decide, _, rfl, rfl⟩
theorem witness_StepKeepsTheInvariant : State.reset.inv = true ∧ ∃ t, step State.reset = .next t := ⟨rfl, _, rfl⟩
theorem witness_ReachableStatesHaveTheInvariant :
    Reachable (State.resetCore Config.machine { State.reset with
      prog := Memory.ofWords [0x0E05#13], status := .awaitingReset }) :=
  .launch State.reset _ [0x0E05#13] rfl
theorem witness_EveryActionKeepsTheInvariant :
    State.reset.inv = true ∧ (∃ t, State.reset.act (.load [0x0E05#13]) = some t) ∧
      (∃ t, State.reset.act .reset = some t) ∧ (∃ t, State.reset.act .step = some t) ∧
      ∃ t, State.reset.act (.driveInput 0xF3#8) = some t := ⟨rfl, ⟨_, rfl⟩, ⟨_, rfl⟩, ⟨_, rfl⟩, _, rfl⟩
theorem witness_LaunchLoadsAndZeroPads :
    (List.replicate 64 0x1FFF#13).length ≤ 64 ∧ 64 < (List.replicate 65 0x1FFF#13).length := by decide
theorem witness_LoadAloneDoesNotRun : ∃ t, State.reset.load Config.machine [0x0E05#13] = some t := ⟨_, rfl⟩
theorem witness_ZeroPaddingIsExecutedAsCallZero : State.reset.status = .running ∧ State.reset.fetch = 0#13 := by decide
theorem witness_EndedRunStaysWhereItIs :
    (st 63#6 9#8 8#8 empty 0xAA#8 0x063F#13).runEnded = true ∧ (st 63#6 9#8 8#8 empty 0xAA#8 0x063F#13).inputs = [] := by
  decide
theorem witness_HighNibbleUnderInputHighZero :
    let s := { State.reset with input := 0x0F#8 }
    inputLawful { Config.machine with inputHighZero := true } s.input = true ∧
      (∃ t, exec (.inp .reg0 0xF0#8) s = .next t) ∧ ∃ t, exec (.inXor .reg0 0xF0#8) s = .next t :=
  ⟨rfl, ⟨_, rfl⟩, _, rfl⟩
theorem witness_LoaderReadsWordsBack :
    hexDigit '1' = some 1 ∧ hexDigit 'F' = some 15 ∧ hexDigit 'f' = some 15 ∧ hexDigit '0' = some 0 ∧
      4096 * 1 + 256 * 15 + 16 * 15 + 15 < 0x2000 := by decide

end Sys2Proof.Tests
end

section
/-! SUPPORT. What an action of the environment can do, said once: the inversion of a load, a cycle and an INPUT, and of
a completed cycle down to the instruction's writes. -/

namespace Sys2Proof.Machine

/-- A completed cycle is the decoded instruction's writes, the pc at its next address, and the environment's drive. -/
theorem step_eq_next_instrWrites {s t : State} (h : step s = .next t) :
    ∃ i, decode s.fetch = .ok i ∧
      t = ((instrWrites i s).setPc (BitVec.ofNat 6 (nextAddress i s))).envDrive := by
  obtain ⟨-, i, u, hi, hu, rfl⟩ := step_eq_next h
  exact ⟨i, hi, by rw [(exec_eq_next hu).2]⟩

/-- A load that is not rejected had a program that fits (`20_memory.md` R51). -/
theorem State.load_eq_some {c : Config} {ws : List Word} {s t : State} (h : s.load c ws = some t) :
    programFits ws = true ∧
      t = { s with prog := Memory.ofWords ws, reg0 := c.regReset, reg1 := c.regReset, status := .awaitingReset } := by
  unfold State.load at h
  split at h
  · next hfit => exact ⟨hfit, (Option.some.inj h).symm⟩
  · cases h

/-- With `INPUT_HIGH_ZERO` false every INPUT value is accepted (`10_state.md` R34, D9). -/
theorem State.act_driveInput_eq_some {s t : State} {v : Byte} (h : s.act (.driveInput v) = some t) :
    t = s.driveInput v :=
  (Option.some.inj h).symm

/-- An asked cycle completes or leaves the fault's mark and nothing else (`60_exceptions.md` R224). -/
theorem State.act_step_eq_some {s t : State} (h : s.act .step = some t) :
    step s = .next t ∨ ∃ f, step s = .fault f ∧ t = s.setStatus (.faulted f) := by
  unfold State.act at h
  cases hs : step s with
  | next u => exact .inl (by simpa [hs] using h)
  | fault f => exact .inr ⟨f, rfl, by simpa [hs, eq_comm] using h⟩
  | refused r => simp [hs] at h

end Sys2Proof.Machine
end

section
/-! SUPPORT. The frame of an instruction's writes, one lemma per field that some instruction writes, and how the writes
and the next address depend on INPUT and on the registers. -/

namespace Sys2Proof.Machine

/-! What the writes leave alone. -/

/-- Only CALL and RET write the stack (`10_state.md` R31). -/
theorem instrWrites_stack_of_notMem {i : Instr} (s : State) (h : i.mnemonic ∉ [.call, .ret]) :
    (instrWrites i s).stack = s.stack := by
  cases i with
  | call | ret => simp [Instr.mnemonic] at h
  | _ => simp [instrWrites]

/-- Only OUT and DOUT write OUTPUT (`10_state.md` R35). -/
theorem instrWrites_output_of_notMem {i : Instr} (s : State) (h : i.mnemonic ∉ [.out, .dout]) :
    (instrWrites i s).output = s.output := by
  cases i with
  | out | dout => simp [Instr.mnemonic] at h
  | _ => simp [instrWrites]

/-- A register is written only by the seven writing instructions, and only where DEST names it (`10_state.md` R23). -/
theorem instrWrites_readReg_of_not_dest {i : Instr} {r : RegName} (s : State)
    (h : ¬(i.dest = r ∧ i.mnemonic ∈ [.add, .sub, .and, .ld, .inp, .xor, .inXor])) :
    (instrWrites i s).readReg r = s.readReg r := by
  cases i with
  | call | ret | bz | b | out | dout => simp [instrWrites]
  | _ d x =>
    have hr : r ≠ d := by rintro rfl; simp [Instr.dest, Instr.mnemonic] at h
    exact State.readReg_writeReg_other s d r _ hr

/-! INPUT. -/

@[simp] theorem nextAddress_driveInput (i : Instr) (s : State) (v : Byte) :
    nextAddress i (s.driveInput v) = nextAddress i s := by
  cases i with
  | bz d x => cases d <;> rfl
  | _ => rfl

/-- Only IN and IN_XOR write what INPUT gives (`10_state.md` R33). -/
theorem instrWrites_driveInput {i : Instr} (s : State) (v : Byte) (h : i.mnemonic ∉ [.inp, .inXor]) :
    instrWrites i (s.driveInput v) = (instrWrites i s).driveInput v := by
  cases i with
  | inp | inXor => simp [Instr.mnemonic] at h
  | call | ret | bz | b | out | dout => rfl
  | _ d x => cases d <;> rfl

/-! The registers. -/

theorem State.writeReg_setPc (s : State) (a : Addr) (r : RegName) (v : Byte) :
    (s.setPc a).writeReg r v = (s.writeReg r v).setPc a := by
  cases r <;> rfl

/-- Only BZ's next address depends on a register (`10_state.md` R27). -/
theorem nextAddress_writeReg {i : Instr} (s : State) (r : RegName) (v : Byte) (h : i.mnemonic ≠ .bz) :
    nextAddress i (s.writeReg r v) = nextAddress i s := by
  cases i with
  | bz => exact absurd rfl h
  | _ => simp [nextAddress]

/-- LD, IN and IN_XOR overwrite DEST without reading it (`10_state.md` R24). -/
theorem instrWrites_writeReg_dest {i : Instr} (s : State) (v : Byte) (h : i.mnemonic ∈ [.ld, .inp, .inXor]) :
    instrWrites i (s.writeReg i.dest v) = instrWrites i s := by
  cases i with
  | ld | inp | inXor => simp [instrWrites, Instr.dest]
  | _ => simp [Instr.mnemonic] at h

/-- CALL, RET, B and DOUT neither read nor write a register (`10_state.md` R24). -/
theorem instrWrites_writeReg {i : Instr} (s : State) (r : RegName) (v : Byte)
    (h : i.mnemonic ∈ [.call, .ret, .b, .dout]) :
    instrWrites i (s.writeReg r v) = (instrWrites i s).writeReg r v := by
  cases i with
  | call | ret | b | dout => cases r <;> rfl
  | _ => simp [Instr.mnemonic] at h

/-- A change of the state that keeps the pc and commutes with setting it goes through a commit, faults included. -/
theorem onNext_finish {f : State → State} {n : Nat} {t : State} (hpc : (f t).pc = t.pc)
    (hset : ∀ a, f (t.setPc a) = (f t).setPc a) : onNext f (finish n t) = finish n (f t) := by
  rcases finish_cases n t with ⟨hn, e⟩ | ⟨hn, e⟩
  · rw [e, finish_of_le hn, onNext_next, hset]
  · rw [e, finish_of_gt hn, onNext_fault, hpc]

end Sys2Proof.Machine
end

section
/-! SUPPORT. The invariant under the stack operations, the updates of the state and an instruction's writes. -/

namespace Sys2Proof.Machine

theorem Stack.bounded_push {k : Stack} {v : Byte} (hk : k.bounded = true) (hv : v.toNat ≤ 64) :
    (k.push v).bounded = true := by
  obtain ⟨h0, h1, h2, -⟩ := k.bounded_iff.1 hk
  exact (Stack.bounded_iff _).2 ⟨hv, h0, h1, h2⟩

/-- The slot a pop fills holds zero (`42_stack.md` R152). -/
theorem Stack.bounded_pop {k : Stack} (hk : k.bounded = true) : k.pop.2.bounded = true := by
  obtain ⟨-, h1, h2, h3⟩ := k.bounded_iff.1 hk
  exact (Stack.bounded_iff _).2 ⟨h1, h2, h3, Nat.zero_le 64⟩

@[simp] theorem Stack.bounded_zero : Stack.bounded ⟨0#8, 0#8, 0#8, 0#8⟩ = true := rfl

/-- The bound of the stack's slots comes from the 6-bit pc (`10_state.md` R26, R32). -/
theorem State.returnAddress_le (s : State) : s.returnAddress.toNat ≤ 64 := by
  have := s.pc.isLt
  rw [State.returnAddress_toNat]
  omega

/-- The invariant speaks of the Program Store and the stack only. -/
theorem State.inv_congr {s t : State} (hprog : t.prog = s.prog) (hstack : t.stack = s.stack) : t.inv = s.inv := by
  rw [State.inv, State.inv, hprog, hstack]

@[simp] theorem State.inv_setPc (s : State) (a : Addr) : (s.setPc a).inv = s.inv := rfl
@[simp] theorem State.inv_setStatus (s : State) (m : Status) : (s.setStatus m).inv = s.inv := rfl
@[simp] theorem State.inv_driveInput (s : State) (v : Byte) : (s.driveInput v).inv = s.inv := rfl
@[simp] theorem State.inv_envDrive (s : State) : s.envDrive.inv = s.inv :=
  State.inv_congr s.envDrive_prog s.envDrive_stack

/-- A reset empties the stack and keeps the Program Store, so it keeps the invariant. -/
theorem State.inv_resetCore {s : State} (c : Config) (h : s.inv = true) : (s.resetCore c).inv = true :=
  (State.inv_iff _).2 ⟨(s.inv_iff.1 h).1, Stack.bounded_zero⟩

/-- A load keeps the stack and leaves a canonical Program Store, so it keeps the invariant. -/
theorem State.inv_load {c : Config} {ws : List Word} {s t : State} (h : s.inv = true) (ht : s.load c ws = some t) :
    t.inv = true := by
  obtain ⟨hfit, rfl⟩ := State.load_eq_some ht
  exact (State.inv_iff _).2 ⟨Memory.wf_ofWords ws hfit, (s.inv_iff.1 h).2⟩

/-- CALL pushes pc + 1, RET pops, and no other instruction writes the stack (`10_state.md` R31). -/
theorem bounded_instrWrites {s : State} (i : Instr) (h : s.stack.bounded = true) :
    (instrWrites i s).stack.bounded = true := by
  cases i with
  | call d x => exact Stack.bounded_push h s.returnAddress_le
  | ret d x => exact Stack.bounded_pop h
  | _ => rwa [instrWrites_stack_of_notMem s (by simp [Instr.mnemonic])]

theorem inv_instrWrites {s : State} (i : Instr) (h : s.inv = true) : (instrWrites i s).inv = true := by
  obtain ⟨hprog, hstack⟩ := s.inv_iff.1 h
  exact (State.inv_iff _).2 ⟨by rwa [instrWrites_prog], bounded_instrWrites i hstack⟩

theorem inv_of_step_eq_next {s t : State} (h : s.inv = true) (ht : step s = .next t) : t.inv = true := by
  obtain ⟨i, -, rfl⟩ := step_eq_next_instrWrites ht
  simpa using inv_instrWrites i h

end Sys2Proof.Machine
end

section
/-! The statements about the state (`10_state.md`): the invariant, how a cycle ends, which cycle changes which part, and
what the instructions read. -/

namespace Sys2Proof.Machine

/-- Settles O50: a completed cycle is an instruction's writes, which keep the invariant, then a pc and an INPUT update,
which it does not speak of. -/
theorem stepKeepsTheInvariant : Obligations.StepKeepsTheInvariant :=
  fun _ _ => inv_of_step_eq_next

/-- Settles O60, action by action. -/
theorem everyActionKeepsTheInvariant : Obligations.EveryActionKeepsTheInvariant := by
  intro s t e hinv hact
  cases e with
  | load ws => exact State.inv_load hinv hact
  | reset =>
    cases hact
    exact State.inv_resetCore Config.machine hinv
  | step =>
    rcases State.act_step_eq_some hact with hnext | ⟨f, -, rfl⟩
    · exact inv_of_step_eq_next hinv hnext
    · simpa using hinv
  | driveInput v =>
    obtain rfl := State.act_driveInput_eq_some hact
    simpa using hinv

/-- Settles O29: every instruction is a commit of its next address. -/
theorem execCompletesOrFaultsByNextPc : Obligations.ExecCompletesOrFaultsByNextPc := by
  intro i s
  rw [exec_eq_finish]
  constructor
  · intro hle
    exact ⟨_, finish_of_le hle, toNat_ofNat_six hle⟩
  · intro hgt
    rw [finish_of_gt hgt, instrWrites_pc]

/-- Settles O39: of the actions but a load, an INPUT and a faulting cycle change neither, and a completed cycle changes
what its instruction's writes change. -/
theorem onlyTheNamedCyclesChangeStackAndOutput : Obligations.OnlyTheNamedCyclesChangeStackAndOutput := by
  intro s t e hact hload
  cases e with
  | load ws => exact absurd rfl (hload ws)
  | reset => exact ⟨fun _ => .inl rfl, fun _ => .inl rfl⟩
  | driveInput v =>
    obtain rfl := State.act_driveInput_eq_some hact
    exact ⟨fun h => absurd rfl h, fun h => absurd rfl h⟩
  | step =>
    rcases State.act_step_eq_some hact with hnext | ⟨f, -, rfl⟩
    · obtain ⟨i, hi, rfl⟩ := step_eq_next_instrWrites hnext
      rw [State.envDrive_stack, State.setPc_stack, State.envDrive_output, State.setPc_output]
      exact ⟨fun h => .inr ⟨rfl, i, hi, not_imp_comm.1 (instrWrites_stack_of_notMem s) h⟩,
        fun h => .inr ⟨rfl, i, hi, not_imp_comm.1 (instrWrites_output_of_notMem s) h⟩⟩
    · exact ⟨fun h => absurd rfl h, fun h => absurd rfl h⟩

/-- Settles O40: an INPUT and a faulting cycle change no register, and a completed cycle changes the one its instruction
writes. -/
theorem onlyRegisterWritersChangeRegisters : Obligations.OnlyRegisterWritersChangeRegisters := by
  intro s t e r hact hne
  cases e with
  | load ws => exact .inr (.inl ⟨ws, rfl⟩)
  | reset => exact .inl rfl
  | driveInput v =>
    obtain rfl := State.act_driveInput_eq_some hact
    exact absurd (State.readReg_driveInput s v r) hne
  | step =>
    rcases State.act_step_eq_some hact with hnext | ⟨f, -, rfl⟩
    · obtain ⟨i, hi, rfl⟩ := step_eq_next_instrWrites hnext
      rw [State.readReg_envDrive, State.readReg_setPc] at hne
      exact .inr (.inr ⟨rfl, i, hi, not_imp_comm.1 (instrWrites_readReg_of_not_dest s) hne⟩)
    · exact absurd (State.readReg_setStatus s _ r) hne

/-- Settles O42: neither the next address nor, but for IN and IN_XOR, the writes depend on INPUT. -/
theorem inputMattersOnlyToInAndInXor : Obligations.InputMattersOnlyToInAndInXor := by
  intro i s v hi
  rw [exec_eq_finish, exec_eq_finish, nextAddress_driveInput, instrWrites_driveInput s v hi]
  exact (onNext_finish (f := (State.driveInput · v)) rfl fun _ => rfl).symm

/-- Settles O43: but for BZ the next address depends on no register, and the writes of the named instructions read
none. -/
theorem registersAreReadOnlyByTheReaders : Obligations.RegistersAreReadOnlyByTheReaders := by
  intro i s r v
  constructor
  · intro hi t ht
    have hbz : i.mnemonic ≠ .bz := by intro h; simp [h] at hi
    rw [← ht, exec_eq_finish, exec_eq_finish, nextAddress_writeReg s i.dest v hbz, instrWrites_writeReg_dest s v hi]
  · intro hi
    have hbz : i.mnemonic ≠ .bz := by intro h; simp [h] at hi
    rw [exec_eq_finish, exec_eq_finish, nextAddress_writeReg s r v hbz, instrWrites_writeReg s r v hi]
    exact (onNext_finish (f := (State.writeReg · r v)) (State.writeReg_pc _ r v)
      fun a => State.writeReg_setPc _ a r v).symm

/-- Settles O17, by the read-after-write rules of the register file. -/
theorem registerWriteRule : Obligations.RegisterWriteRule :=
  fun d e v s => ⟨s.readReg_writeReg_same d v, s.readReg_writeReg_other d e v, rfl⟩

/-- Settles O49: the reset state has the empty Program Store and the zero stack. -/
theorem resetStateKeepsTheInvariant : Obligations.ResetStateKeepsTheInvariant :=
  (State.inv_iff _).2 ⟨Memory.wf_nil, Stack.bounded_zero⟩

end Sys2Proof.Machine
end

section
/-! SUPPORT. The words of a loaded program and its launch (`20_memory.md` R51), what a completed cycle leaves of the Program
Store and of INPUT (R52), and the forward direction of `step_eq_next_instrWrites`. -/

namespace Sys2Proof.Machine

/-- The first word of a program stands at the first address, the rest from the next address on; a zero word, which is not
listed, is read as well. -/
theorem Memory.read_ofWordsFrom_cons {lo : Nat} {w : Word} {ws : List Word} (h : lo + (w :: ws).length ≤ 64) (a : Nat) :
    Memory.read (Memory.ofWordsFrom lo (w :: ws)) a =
      if lo = a then w else Memory.read (Memory.ofWordsFrom (lo + 1) ws) a := by
  rw [Memory.ofWordsFrom]
  split
  · next hw =>
    split
    · next hla =>
      rw [List.length_cons] at h
      rw [hw, Memory.read_of_lt (Memory.wfFrom_ofWordsFrom (lo + 1) ws (by omega)) (by omega)]
    · rfl
  · rfl

/-- A program's words stand in order, with zero words after them (`20_memory.md` R51). -/
theorem Memory.read_ofWordsFrom_add {lo : Nat} {ws : List Word} (h : lo + ws.length ≤ 64) (k : Nat) :
    Memory.read (Memory.ofWordsFrom lo ws) (lo + k) = ws.getD k 0#13 := by
  induction ws generalizing lo k with
  | nil => simp [Memory.ofWordsFrom]
  | cons w ws ih =>
    rw [Memory.read_ofWordsFrom_cons h]
    cases k with
    | zero => simp
    | succ k =>
      rw [List.length_cons] at h
      rw [if_neg (by omega), show lo + (k + 1) = lo + 1 + k by omega, ih (by omega), List.getD_cons_succ]

theorem Memory.read_ofWords {ws : List Word} (h : ws.length ≤ 64) (a : Nat) :
    Memory.read (Memory.ofWords ws) a = ws.getD a 0#13 := by
  have hread := Memory.read_ofWordsFrom_add (lo := 0) (by omega : 0 + ws.length ≤ 64) a
  rwa [Nat.zero_add] at hread

/-- A program that fits is launched: the reset state over its Program Store (`70_reset_and_hazards.md` R257). -/
theorem State.launch_of_le {ws : List Word} (c : Config) (s : State) (h : ws.length ≤ 64) :
    s.launch c ws = some ((s.setProg (Memory.ofWords ws)).resetCore c) := by
  simp [State.launch, State.load, programFits, h, State.setProg, State.resetCore]

/-- A program that does not fit is rejected (`20_memory.md` R51). -/
theorem State.launch_of_gt {ws : List Word} (c : Config) (s : State) (h : 64 < ws.length) : s.launch c ws = none := by
  simp [State.launch, State.load, programFits, h]

/-- No instruction writes the Program Store (`20_memory.md` R52). -/
theorem prog_of_step_eq_next {s t : State} (h : step s = .next t) : t.prog = s.prog := by
  obtain ⟨i, -, rfl⟩ := step_eq_next_instrWrites h
  simp

/-- After a completed cycle INPUT and the values to come are what the environment's drive makes of them (log entry 3). -/
theorem input_of_step_eq_next {s t : State} (h : step s = .next t) :
    t.input = s.inputs.headD s.input ∧ t.inputs = s.inputs.tail := by
  obtain ⟨i, -, rfl⟩ := step_eq_next_instrWrites h
  simp

/-- A running core completes the decoded instruction when its next address is in range. -/
theorem step_of_nextAddress_le {s : State} {i : Instr} (hs : s.status = .running) (hi : decode s.fetch = .ok i)
    (hn : nextAddress i s ≤ 63) :
    step s = .next ((instrWrites i s).setPc (BitVec.ofNat 6 (nextAddress i s))).envDrive := by
  rw [step, runCycle_running hs, hi]
  simp only [exec_eq_finish, finish_of_le hn, onNext_next]

/-- The all-zero word under the default `OPMAP` (`20_memory.md` R60, D1). -/
theorem decode_zero : decode 0#13 = .ok (.call .reg0 0#8) := rfl

end Sys2Proof.Machine
end

section
/-! The statements about the Program Store (`20_memory.md`): who changes it, what a launch puts there, and how its zero
padding runs. -/

namespace Sys2Proof.Machine

/-- Settles O38: a completed cycle keeps the Program Store, and INPUT is the environment's drive of it. -/
theorem stepNeverWritesStoreOrInput : Obligations.StepNeverWritesStoreOrInput := by
  intro s t hstep
  obtain ⟨hinput, hinputs⟩ := input_of_step_eq_next hstep
  refine ⟨fun a => by rw [prog_of_step_eq_next hstep], fun hnil => ?_, fun v vs hcons => ?_⟩
  · rw [hinput, hinputs, hnil]
    exact ⟨rfl, rfl⟩
  · rw [hinput, hinputs, hcons]
    exact ⟨rfl, rfl⟩

/-- Settles O41, action by action: only a completed cycle could write the store beside a load, and it does not. -/
theorem onlyLoadChangesTheProgramStore : Obligations.OnlyLoadChangesTheProgramStore := by
  intro s t e hact hload
  cases e with
  | load ws => exact absurd rfl (hload ws)
  | reset =>
    cases hact
    exact s.resetCore_prog Config.machine
  | step =>
    rcases State.act_step_eq_some hact with hnext | ⟨f, -, rfl⟩
    · exact prog_of_step_eq_next hnext
    · exact s.setStatus_prog _
  | driveInput v =>
    obtain rfl := State.act_driveInput_eq_some hact
    exact s.driveInput_prog v

/-- Settles O54: the launch is a reset over the program's store, whose words are read back in order. -/
theorem launchLoadsAndZeroPads : Obligations.LaunchLoadsAndZeroPads := by
  intro c ws s
  constructor
  · intro hle
    exact ⟨_, State.launch_of_le c s hle, fun a _ => Memory.read_ofWords hle a, rfl, rfl, rfl, rfl, rfl, rfl, rfl⟩
  · exact State.launch_of_gt c s

/-- Settles O56: the zero word decodes to CALL 0, whose next address 0 is in range from every pc. -/
theorem zeroPaddingIsExecutedAsCallZero : Obligations.ZeroPaddingIsExecutedAsCallZero := by
  intro s hs hfetch
  have hdecode : decode s.fetch = .ok (.call .reg0 0#8) := by rw [hfetch, decode_zero]
  exact step_of_nextAddress_le hs hdecode (Nat.zero_le 63)

end Sys2Proof.Machine
end

section
/-! SUPPORT. What an admitted `OPMAP` is (`30_encoding.md` R75), stage 1 as its inverse, and the decoder as the inverse
of the encoder (R76). -/

namespace Sys2Proof

theorem Config.opmapWf_of_wf {c : Config} (h : c.wf = true) : c.opmap.length = 13 ∧ c.opmap.Nodup := by
  obtain ⟨hmap, -⟩ := Bool.and_eq_true_iff.1 h
  simpa [opmapWf] using hmap

/-- Every mnemonic has an opcode: an admitted `OPMAP` is a rearrangement of the default one. -/
theorem Config.mem_opmap_of_wf {c : Config} (h : c.wf = true) (m : Mnemonic) : m ∈ c.opmap := by
  obtain ⟨hlen, hnodup⟩ := Config.opmapWf_of_wf h
  have hall : ∀ n : Mnemonic, n ∈ Config.machine.opmap := fun n => by cases n <;> decide
  have hperm : c.opmap.Perm Config.machine.opmap :=
    (hnodup.subperm fun n _ => hall n).perm_of_length_le (Nat.le_of_eq hlen.symm)
  exact hperm.mem_iff.2 (hall m)

theorem opcodeOf_toNat {c : Config} (h : c.wf = true) (m : Mnemonic) : (opcodeOf c m).toNat = c.opmap.idxOf m := by
  have hlt := List.idxOf_lt_length_of_mem (Config.mem_opmap_of_wf h m)
  rw [(Config.opmapWf_of_wf h).1] at hlt
  exact (BitVec.toNat_ofNat _ _).trans (Nat.mod_eq_of_lt (by omega))

theorem stage1_eq_none_iff {c : Config} (h : c.wf = true) (o : BitVec 4) : stage1 c o = none ↔ 12 < o.toNat := by
  simp only [stage1, ite_eq_right_iff, List.getElem?_eq_none_iff, (Config.opmapWf_of_wf h).1]
  omega

theorem getElem?_opmap_of_stage1 {c : Config} {o : BitVec 4} {m : Mnemonic} (h : stage1 c o = some m) :
    c.opmap[o.toNat]? = some m := by
  unfold stage1 at h
  split at h
  · exact h
  · cases h

/-- Stage 1 is the inverse of `OPMAP`: an opcode gives the one mnemonic that has it. -/
theorem stage1_eq_some_iff {c : Config} (h : c.wf = true) (o : BitVec 4) (m : Mnemonic) :
    stage1 c o = some m ↔ opcodeOf c m = o := by
  obtain ⟨hlen, hnodup⟩ := Config.opmapWf_of_wf h
  constructor
  · intro hm
    obtain ⟨hlt, rfl⟩ := List.getElem?_eq_some_iff.1 (getElem?_opmap_of_stage1 hm)
    exact BitVec.eq_of_toNat_eq ((opcodeOf_toNat h _).trans (hnodup.idxOf_getElem _ hlt))
  · rintro rfl
    have hlt := List.idxOf_lt_length_of_mem (Config.mem_opmap_of_wf h m)
    rw [stage1, opcodeOf_toNat h, if_pos (by omega), List.getElem?_eq_getElem hlt, List.getElem_idxOf hlt]

theorem decodeWith_of_stage1_eq_some {c : Config} {w : Word} {m : Mnemonic}
    (h : stage1 c (opcodeField (orderWord c.wordBitOrder w)) = some m) :
    decodeWith c w = .ok (Instr.ofFields m (RegName.ofBit (destField (orderWord c.wordBitOrder w)))
      (dataField (orderWord c.wordBitOrder w))) := by
  simp only [decodeWith, h]

theorem decodeWith_of_stage1_eq_none {c : Config} {w : Word}
    (h : stage1 c (opcodeField (orderWord c.wordBitOrder w)) = none) :
    decodeWith c w = .error (.invalidOpcode (opcodeField (orderWord c.wordBitOrder w))) := by
  simp only [decodeWith, h]

/-- A word is no instruction exactly when stage 1 has no mnemonic for its OPCODE (`30_encoding.md` R77). -/
theorem decodeWith_eq_error_iff (c : Config) (w : Word) :
    (∃ r, decodeWith c w = .error r) ↔ stage1 c (opcodeField (orderWord c.wordBitOrder w)) = none := by
  cases h : stage1 c (opcodeField (orderWord c.wordBitOrder w)) with
  | none => simp [decodeWith_of_stage1_eq_none h]
  | some m => simp [decodeWith_of_stage1_eq_some h]

/-- The word of an instruction decodes to it: its fields are read back and `OPMAP` is inverted. -/
theorem decodeWith_encodeWith {c : Config} (h : c.wf = true) (i : Instr) : decodeWith c (encodeWith c i) = .ok i := by
  have hm : stage1 c (opcodeField (orderWord c.wordBitOrder (encodeWith c i))) = some i.mnemonic := by
    rw [stage1_eq_some_iff h, encodeWith, orderWord_orderWord, opcodeField_joinFields]
  rw [decodeWith_of_stage1_eq_some hm, encodeWith, orderWord_orderWord, destField_joinFields, dataField_joinFields,
    RegName.ofBit_toBit, Instr.ofFields_fields]

/-- A word that decodes is put together again from the fields it was split into. -/
theorem encodeWith_of_decodeWith {c : Config} {w : Word} {i : Instr} (h : c.wf = true)
    (hi : decodeWith c w = .ok i) : encodeWith c i = w := by
  cases hm : stage1 c (opcodeField (orderWord c.wordBitOrder w)) with
  | none =>
    rw [decodeWith_of_stage1_eq_none hm] at hi
    cases hi
  | some m =>
    rw [decodeWith_of_stage1_eq_some hm] at hi
    cases hi
    rw [encodeWith, Instr.mnemonic_ofFields, Instr.dest_ofFields, Instr.data_ofFields,
      (stage1_eq_some_iff h _ m).1 hm, RegName.toBit_ofBit, joinFields_fields, orderWord_orderWord]

theorem RegName.ofBit_eq_reg0_iff (b : BitVec 1) : RegName.ofBit b = .reg0 ↔ b.toNat = 0 := by
  revert b; decide

/-- OPCODE as the integer R71 gives. -/
theorem ofNat_div_eq_opcodeField (w : Word) : BitVec.ofNat 4 (w.toNat / 512) = opcodeField w := by
  rw [← opcodeField_toNat, BitVec.ofNat_toNat, BitVec.setWidth_eq]

end Sys2Proof
end

section
/-! SUPPORT. The fault of an undefined opcode in the microcoded cycle and in the step (`30_encoding.md` R77), and what
the meaning of an instruction depends on. -/

namespace Sys2Proof.Machine

theorem cycle_of_stage1_eq_none {c : Config} {s : State} (hs : s.status = .running)
    (h : stage1 c (opcodeField (orderWord c.wordBitOrder s.fetch)) = none) :
    cycle c s = .fault (.invalidOpcode s.pc s.fetch) := by
  simp only [cycle, hs, controlOf, h, Option.map_none, raise]

theorem step_of_decode_eq_error {s : State} {r : DecodeReject} (hs : s.status = .running)
    (h : decode s.fetch = .error r) : step s = .fault (.invalidOpcode s.pc s.fetch) := by
  rw [step, runCycle_running hs, h]
  rfl

/-- Instructions with one next address and the same writes have one meaning. -/
theorem exec_congr {i j : Instr} {s : State} (hnext : nextAddress i s = nextAddress j s)
    (hwrites : instrWrites i s = instrWrites j s) : exec i s = exec j s := by
  rw [exec_eq_finish, exec_eq_finish, hnext, hwrites]

end Sys2Proof.Machine
end

section
/-! SUPPORT. The characters of a word in the text format and the number they stand for (`30_encoding.md` R84), and the
four digits of a line of the hex format (R85). -/

namespace Sys2Proof.Machine

/-- The first `n` of the 13 characters of a word, most significant bit first. -/
def wordText (w : Word) (n : Nat) : List Char := (List.range n).map fun k => if w.getLsbD (12 - k) then '1' else '0'

theorem wordText_length (w : Word) (n : Nat) : (wordText w n).length = n := by simp [wordText]

theorem wordText_succ (w : Word) (n : Nat) :
    wordText w (n + 1) = wordText w n ++ [if w.getLsbD (12 - n) then '1' else '0'] := by
  simp [wordText, List.range_succ]

theorem eq_zero_or_one_of_mem_wordText {w : Word} {n : Nat} {ch : Char} (h : ch ∈ wordText w n) :
    ch = '0' ∨ ch = '1' := by
  obtain ⟨k, -, rfl⟩ := List.mem_map.1 h
  split <;> simp

theorem binaryNumber_append_bit (chars : List Char) (bit : Bool) :
    binaryNumber (chars ++ [if bit then '1' else '0']) = 2 * binaryNumber chars + bit.toNat := by
  cases bit <;> simp [binaryNumber]

/-- The first `n` characters stand for the `n` high bits of the word. -/
theorem binaryNumber_wordText {w : Word} {n : Nat} (h : n ≤ 13) :
    binaryNumber (wordText w n) = w.toNat / 2 ^ (13 - n) := by
  induction n with
  | zero => exact (Nat.div_eq_of_lt w.isLt).symm
  | succ n ih =>
    have hhalf : w.toNat / 2 ^ (13 - n) = w.toNat / 2 ^ (12 - n) / 2 := by
      rw [Nat.div_div_eq_div_mul, ← Nat.pow_succ, show (12 - n).succ = 13 - n by omega]
    have hbit : (w.getLsbD (12 - n)).toNat = w.toNat / 2 ^ (12 - n) % 2 := Nat.toNat_testBit _ _
    rw [wordText_succ, binaryNumber_append_bit, ih (by omega), hhalf, hbit, Nat.div_add_mod,
      show 13 - (n + 1) = 12 - n by omega]

/-- What the loader keeps of a line of 0 and 1 before a comment: every character up to the comment mark. -/
theorem filter_takeWhile_comment {bits comment : List Char} (h : ∀ ch ∈ bits, ch = '0' ∨ ch = '1') :
    ((bits ++ '#' :: comment).takeWhile (· ≠ '#')).filter (fun ch => ch = '0' || ch = '1') = bits := by
  have hmark : ∀ ch ∈ bits, decide (ch ≠ '#') = true := fun ch hch => by
    rcases h ch hch with rfl | rfl <;> decide
  rw [List.takeWhile_append_of_pos hmark]
  simpa using h

/-- The text line of a word and a comment is read as that word. -/
theorem loadTextLine_wordText (w : Word) (comment : List Char) :
    loadTextLine .firstIsBit12 (wordText w 13 ++ '#' :: comment) = .word w := by
  have hnum : binaryNumber (wordText w 13) = w.toNat := by
    rw [binaryNumber_wordText (Nat.le_refl 13), Nat.sub_self, Nat.pow_zero, Nat.div_one]
  simp only [loadTextLine, filter_takeWhile_comment fun _ => eq_zero_or_one_of_mem_wordText, wordText_length, hnum,
    if_true, orderWord, BitVec.ofNat_toNat, BitVec.setWidth_eq]

/-- Four hexadecimal digits of a value below 0x2000 are read as the word of that value, whatever follows them. -/
theorem loadHexLine_of_digits {o : WordBitOrder} {p q r u : Char} {a b c d : Nat} (rest : List Char)
    (ha : hexDigit p = some a) (hb : hexDigit q = some b) (hc : hexDigit r = some c) (hd : hexDigit u = some d)
    (hlt : 4096 * a + 256 * b + 16 * c + d < 0x2000) :
    loadHexLine o (p :: q :: r :: u :: rest) =
      .word (orderWord o (BitVec.ofNat 13 (4096 * a + 256 * b + 16 * c + d))) := by
  have hdigits : ((p :: q :: r :: u :: rest).take 4).mapM hexDigit = some [a, b, c, d] := by
    simp [ha, hb, hc, hd]
  have hval : ((a * 16 + b) * 16 + c) * 16 + d = 4096 * a + 256 * b + 16 * c + d := by omega
  simp only [loadHexLine, hdigits, hval, if_pos hlt]

end Sys2Proof.Machine
end

section
/-! The statements about the encoding (`30_encoding.md`): the round trip in both directions, the fields of a word, the
undefined opcodes, the loader's lines and the ignored fields. -/

namespace Sys2Proof.Machine

/-- Settles O4. -/
theorem decodeOfEncodeIsIdentity : Obligations.DecodeOfEncodeIsIdentity :=
  fun _ i h => decodeWith_encodeWith h i

/-- Settles O5. -/
theorem encodeOfDecodeIsIdentity : Obligations.EncodeOfDecodeIsIdentity :=
  fun _ _ _ => encodeWith_of_decodeWith

/-- Settles O2: stage 1 answers exactly the opcodes up to 12, and the other two fields are read as they stand. -/
theorem decodeSplitsTheWordIntoFields : Obligations.DecodeSplitsTheWordIntoFields := by
  intro c w h horder
  have hw : orderWord c.wordBitOrder w = w := by rw [horder, orderWord]
  rw [ofNat_div_eq_opcodeField, ← opcodeField_toNat]
  constructor
  · intro hle
    have hsome : stage1 c (opcodeField w) ≠ none := fun hnone =>
      absurd ((stage1_eq_none_iff h _).1 hnone) (by omega)
    obtain ⟨m, hm⟩ := Option.ne_none_iff_exists'.1 hsome
    have hdecode := decodeWith_of_stage1_eq_some (hw.symm ▸ hm)
    rw [hw] at hdecode
    refine ⟨m, _, _, hdecode, getElem?_opmap_of_stage1 hm, ?_, ?_, dataField_toNat w, ?_⟩
    · rw [← opcodeOf_toNat h, (stage1_eq_some_iff h _ m).1 hm]
    · rw [RegName.ofBit_eq_reg0_iff, destField_toNat]
    · rw [controlOf, hm, Option.map_some]
  · intro hgt
    have hnone := (stage1_eq_none_iff h _).2 hgt
    have hdecode := decodeWith_of_stage1_eq_none (hw.symm ▸ hnone)
    rwa [hw] at hdecode

/-- Settles O3: stage 1 has no mnemonic exactly for an OPCODE above 12, which is a word from 0x1A00 on; decoder, cycle
and step all turn on it. -/
theorem undefinedOpcodesRaiseInvalidOpcode : Obligations.UndefinedOpcodesRaiseInvalidOpcode := by
  have hnone : ∀ (c : Config) (w : Word), c.wf = true → c.wordBitOrder = .firstIsBit12 →
      (stage1 c (opcodeField (orderWord c.wordBitOrder w)) = none ↔ 0x1A00 ≤ w.toNat) := by
    intro c w h horder
    rw [stage1_eq_none_iff h, horder, orderWord, opcodeField_toNat]
    omega
  refine ⟨fun c w h horder => ?_, fun c s h horder hs hfetch => ?_, fun s hs hfetch => ?_⟩
  · rw [decodeWith_eq_error_iff, hnone c w h horder]
  · exact ⟨_, _, cycle_of_stage1_eq_none hs ((hnone c s.fetch h horder).2 hfetch)⟩
  · obtain ⟨r, hr⟩ := (decodeWith_eq_error_iff _ _).2 ((hnone Config.machine s.fetch (by decide) rfl).2 hfetch)
    exact ⟨_, _, step_of_decode_eq_error hs hr⟩

/-- Settles O59: a text line gives back the word's number bit by bit, a hex line digit by digit. -/
theorem loaderReadsWordsBack : Obligations.LoaderReadsWordsBack :=
  ⟨loadTextLine_wordText, fun _ _ _ _ _ _ _ _ rest ha hb hc hd hlt => loadHexLine_of_digits rest ha hb hc hd hlt⟩

/-- Settles O7: neither the next address nor the writes of these instructions mention the field. -/
theorem ignoredFieldsChangeNothing : Obligations.IgnoredFieldsChangeNothing :=
  fun _ _ _ _ _ => ⟨exec_congr rfl rfl, exec_congr rfl rfl, exec_congr rfl rfl, exec_congr rfl rfl,
    exec_congr rfl rfl, exec_congr rfl rfl⟩

end Sys2Proof.Machine
end

section
/-! SUPPORT. An undefined opcode in stage 1 under any configuration (`40_control_decoder.md` R119), and the packing of a
control word (R115): which control word a value unpacks to, and the default packing as a number. -/

namespace Sys2Proof.Machine

/-- No mnemonic has an OPCODE above 12, whatever `OPMAP` holds (`30_encoding.md` R77). -/
theorem stage1_eq_none_of_lt (c : Config) {o : BitVec 4} (h : 12 < o.toNat) : stage1 c o = none :=
  if_neg (Nat.not_le.2 h)

/-- Unpacking reads each field by itself: the coded ones by their codes, the last two by their bits. -/
theorem unpackControl_eq_some_iff (p : CwPacking) (v : BitVec 10) (cw : ControlWord) :
    unpackControl p v = some cw ↔
      p.stackOps[(v.extractLsb' p.stackOpLsb 2).toNat]? = some cw.stackOp ∧
      p.addrSrcs[(v.extractLsb' p.addrSrcLsb 2).toNat]? = some cw.addrSrc ∧
      p.aluOps[(v.extractLsb' p.aluOpLsb 3).toNat]? = some cw.aluOp ∧
      p.aluSrcs[(v.extractLsb' p.aluSrcLsb 1).toNat]? = some cw.aluSrc ∧
      v.getLsbD p.regWrLsb = cw.regWr ∧ v.getLsbD p.outLatchLsb = cw.outLatch := by
  obtain ⟨so, asrc, op, src, wr, latch⟩ := cw
  unfold unpackControl
  split
  next hso hasrc hop hsrc => simp only [hso, hasrc, hop, hsrc, Option.some.injEq, ControlWord.mk.injEq]
  next hnone =>
    constructor
    · intro h
      cases h
    · rintro ⟨hso, hasrc, hop, hsrc, -, -⟩
      exact absurd hsrc (hnone _ _ _ _ hso hasrc hop)

/-! The default packing has a code for every value of every field. -/

theorem mem_byRow_stackOps (x : StackOp) : x ∈ CwPacking.byRow.stackOps := by cases x <;> decide
theorem mem_byRow_addrSrcs (x : AddrSrc) : x ∈ CwPacking.byRow.addrSrcs := by cases x <;> decide
theorem mem_byRow_aluOps (x : AluOp) : x ∈ CwPacking.byRow.aluOps := by cases x <;> decide
theorem mem_byRow_aluSrcs (x : AluSrc) : x ∈ CwPacking.byRow.aluSrcs := by cases x <;> decide

/-- A code is below the number of values its field has (`40_control_decoder.md` R114). -/
theorem byRow_codes_lt (cw : ControlWord) :
    CwPacking.byRow.stackOps.idxOf cw.stackOp < 3 ∧ CwPacking.byRow.addrSrcs.idxOf cw.addrSrc < 4 ∧
      CwPacking.byRow.aluOps.idxOf cw.aluOp < 7 ∧ CwPacking.byRow.aluSrcs.idxOf cw.aluSrc < 2 :=
  ⟨List.idxOf_lt_length_of_mem (mem_byRow_stackOps _), List.idxOf_lt_length_of_mem (mem_byRow_addrSrcs _),
    List.idxOf_lt_length_of_mem (mem_byRow_aluOps _), List.idxOf_lt_length_of_mem (mem_byRow_aluSrcs _)⟩

/-- The packed control word as the integer of R115, which fits 10 bits. -/
theorem packControl_byRow_toNat (cw : ControlWord) :
    (packControl .byRow cw).toNat =
      CwPacking.byRow.stackOps.idxOf cw.stackOp * 256 + CwPacking.byRow.addrSrcs.idxOf cw.addrSrc * 64 +
      CwPacking.byRow.aluOps.idxOf cw.aluOp * 8 + CwPacking.byRow.aluSrcs.idxOf cw.aluSrc * 4 +
      cw.regWr.toNat * 2 + cw.outLatch.toNat := by
  obtain ⟨hso, hasrc, hop, hsrc⟩ := byRow_codes_lt cw
  have hwr := cw.regWr.toNat_lt
  have hlatch := cw.outLatch.toNat_lt
  simp only [packControl, BitVec.toNat_ofNat, Nat.shiftLeft_eq]
  simp only [CwPacking.byRow] at *
  omega

/-- A coded field reads a value back when the bits of the field hold the value's code. -/
theorem getElem?_extractLsb'_of_mem {α : Type} [DecidableEq α] {l : List α} {x : α} {v : BitVec 10} {lsb len : Nat}
    (hx : x ∈ l) (h : v.toNat / 2 ^ lsb % 2 ^ len = l.idxOf x) : l[(v.extractLsb' lsb len).toNat]? = some x := by
  rw [BitVec.extractLsb'_toNat, Nat.shiftRight_eq_div_pow, h, List.getElem?_idxOf hx]

theorem getLsbD_eq_of_div_mod {v : BitVec 10} {k : Nat} {b : Bool} (h : v.toNat / 2 ^ k % 2 = b.toNat) :
    v.getLsbD k = b := by
  rw [BitVec.getLsbD, Nat.testBit_eq_decide_div_mod_eq, h]
  cases b <;> rfl

/-- Unpacking undoes packing: each field stands in its own bits of the packed integer. -/
theorem unpackControl_packControl_byRow (cw : ControlWord) :
    unpackControl .byRow (packControl .byRow cw) = some cw := by
  obtain ⟨hso, hasrc, hop, hsrc⟩ := byRow_codes_lt cw
  have hwr := cw.regWr.toNat_lt
  have hlatch := cw.outLatch.toNat_lt
  have hv := packControl_byRow_toNat cw
  refine (unpackControl_eq_some_iff _ _ _).2 ⟨?_, ?_, ?_, ?_, ?_, ?_⟩
  · exact getElem?_extractLsb'_of_mem (lsb := 8) (mem_byRow_stackOps _) (by omega)
  · exact getElem?_extractLsb'_of_mem (lsb := 6) (mem_byRow_addrSrcs _) (by omega)
  · exact getElem?_extractLsb'_of_mem (lsb := 3) (mem_byRow_aluOps _) (by omega)
  · exact getElem?_extractLsb'_of_mem (lsb := 2) (mem_byRow_aluSrcs _) (by omega)
  · exact getLsbD_eq_of_div_mod (k := 1) (by omega)
  · exact getLsbD_eq_of_div_mod (k := 0) (by omega)

/-- The code 3 of StackOp and the code 7 of ALUOp stand for no value (`93_implementation_defined.md` U13). -/
theorem unpackControl_byRow_eq_none {v : BitVec 10} (h : v.extractLsb' 8 2 = 3#2 ∨ v.extractLsb' 3 3 = 7#3) :
    unpackControl .byRow v = none := by
  refine Option.eq_none_iff_forall_ne_some.2 fun cw hcw => ?_
  obtain ⟨hso, -, hop, -, -, -⟩ := (unpackControl_eq_some_iff _ _ _).1 hcw
  obtain h | h := h
  · change CwPacking.byRow.stackOps[(v.extractLsb' 8 2).toNat]? = _ at hso
    rw [h] at hso
    cases hso
  · change CwPacking.byRow.aluOps[(v.extractLsb' 3 3).toNat]? = _ at hop
    rw [h] at hop
    cases hop

end Sys2Proof.Machine
end

section
/-! The statements about the control decoder (`40_control_decoder.md`): the table of stage 2 with the undefined opcodes,
the packed control words, and the selection of the ALU operands. -/

namespace Sys2Proof.Machine

/-- Settles O8: the rows are those of stage 2, and an OPCODE above 12 stops at stage 1. -/
theorem controlTableIsTheSpecs : Obligations.ControlTableIsTheSpecs := by
  have hnone (c : Config) {o : BitVec 4} (h : 12 < o.toNat) : controlOf c o = none := by
    rw [controlOf, stage1_eq_none_of_lt c h, Option.map_none]
  refine ⟨rfl, rfl, rfl, rfl, rfl, rfl, rfl, rfl, rfl, rfl, rfl, rfl, rfl, fun c => ?_, fun c s hs hop => ?_⟩
  · exact ⟨hnone c (by decide), hnone c (by decide), hnone c (by decide)⟩
  · have hlt : 12 < (opcodeField (orderWord c.wordBitOrder s.fetch)).toNat := by
      obtain h | h | h := hop <;> rw [h] <;> decide
    exact ⟨_, _, cycle_of_stage1_eq_none hs (stage1_eq_none_of_lt c hlt)⟩

/-- Settles O9: the thirteen packed words are computed, and unpacking reads every field back or finds a code unused. -/
theorem controlWordPackingTable : Obligations.ControlWordPackingTable :=
  ⟨rfl, rfl, rfl, rfl, rfl, rfl, rfl, rfl, rfl, rfl, rfl, rfl, rfl, unpackControl_packControl_byRow,
    fun _ => unpackControl_byRow_eq_none⟩

/-- Settles O16: both selections are the multiplexers' own equations. -/
theorem operandSelectionRule : Obligations.OperandSelectionRule :=
  fun _ _ _ => ⟨rfl, rfl, rfl, rfl⟩

end Sys2Proof.Machine
end

section
/-! SUPPORT. The ALU said once per operation (`41_alu.md` R131 to R137): both outputs of the five operations that do not
add, ADD as the sum of bytes with its own zero rule, and SUB as ADD of the negated operand. -/

namespace Sys2Proof.Machine

variable (a b : Byte)

@[simp] theorem alu_passA : alu .passA a b = ⟨a, a == 0#8⟩ := rfl
@[simp] theorem alu_passB : alu .passB a b = ⟨b, b == 0#8⟩ := rfl
@[simp] theorem alu_and : alu .and a b = ⟨a &&& b, (a &&& b) == 0#8⟩ := rfl
@[simp] theorem alu_xor : alu .xor a b = ⟨a ^^^ b, (a ^^^ b) == 0#8⟩ := rfl
@[simp] theorem alu_zero : alu .zero a b = ⟨0#8, true⟩ := rfl

/-- The five operations that do not add (`41_alu.md` R138). -/
theorem alu_zero_iff_result (op : AluOp) (a b : Byte) (hadd : op ≠ .add) (hsub : op ≠ .sub) :
    (alu op a b).zero = true ↔ (alu op a b).result = 0#8 := by
  cases op with
  | add => exact absurd rfl hadd
  | sub => exact absurd rfl hsub
  | passA | passB | and | xor | zero => simp

/-! ADD: the result is cut to 8 bits, the zero output looks at the sum before that. -/

@[simp] theorem alu_add_result : (alu .add a b).result = a + b := rfl

theorem alu_add_zero_iff_sum : (alu .add a b).zero = true ↔ a.toNat + b.toNat = 0 := beq_iff_eq

theorem alu_add_zero_iff : (alu .add a b).zero = true ↔ a = 0#8 ∧ b = 0#8 := by
  rw [alu_add_zero_iff_sum, Nat.add_eq_zero_iff, BitVec.toNat_eq, BitVec.toNat_eq]
  rfl

/-! SUB: the 8-bit two's complement is the byte's negation, so zero is its own (D6). -/

theorem twosComplement_eq_neg : twosComplement b = -b := (BitVec.neg_eq_not_add b).symm

theorem neg_eq_ofNat_sub : -b = BitVec.ofNat 8 (256 - b.toNat) :=
  BitVec.eq_of_toNat_eq (by simp)

theorem alu_sub_eq_alu_add_neg : alu .sub a b = alu .add a (-b) := by
  rw [← twosComplement_eq_neg]
  simp only [alu, aluResult, zeroOut, Nat.add_comm]

@[simp] theorem alu_sub_result : (alu .sub a b).result = a - b := by
  rw [alu_sub_eq_alu_add_neg, alu_add_result, BitVec.sub_eq_add_neg]

theorem alu_sub_zero_iff : (alu .sub a b).zero = true ↔ a = 0#8 ∧ b = 0#8 := by
  rw [alu_sub_eq_alu_add_neg, alu_add_zero_iff, BitVec.neg_eq_zero_iff]

end Sys2Proof.Machine
end

section
/-! The statements about the ALU (`41_alu.md`): each operation's result and zero output, SUB as ADD, and the zero output
against a zero result. -/

namespace Sys2Proof.Machine

/-- Settles O11: the model's two's complement and the statement's are both the byte's negation. -/
theorem aluSubIsAddOfTwosComplement : Obligations.AluSubIsAddOfTwosComplement := by
  intro a b
  refine ⟨?_, ?_, alu_sub_zero_iff a b⟩
  · rw [alu_sub_eq_alu_add_neg, neg_eq_ofNat_sub]
  · rw [alu_sub_result, BitVec.toNat_sub, Nat.add_comm]

/-- Settles O13: ADD and SUB have zero true for two zero operands only, while a nonzero byte and its negation also sum to
a zero result. -/
theorem zeroOutputAgainstZeroResult : Obligations.ZeroOutputAgainstZeroResult := by
  refine ⟨alu_zero_iff_result, fun op a b hzero => ?_, fun a ha => ⟨?_, ?_⟩, fun a ha => ⟨?_, ?_⟩⟩
  · cases op with
    | add =>
      obtain ⟨rfl, rfl⟩ := (alu_add_zero_iff a b).1 hzero
      rfl
    | sub =>
      obtain ⟨rfl, rfl⟩ := (alu_sub_zero_iff a b).1 hzero
      rfl
    | passA | passB | and | xor | zero => exact (alu_zero_iff_result _ a b (by decide) (by decide)).1 hzero
  · rw [← neg_eq_ofNat_sub, alu_add_result, BitVec.add_right_neg]
  · exact Bool.eq_false_iff.2 fun h => ha ((alu_add_zero_iff _ _).1 h).1
  · rw [alu_sub_result, BitVec.sub_self]
  · exact Bool.eq_false_iff.2 fun h => ha ((alu_sub_zero_iff _ _).1 h).1

/-- Settles O10: the sum of bytes wraps modulo 256, and only two zeros have the sum 0. -/
theorem aluAddRule : Obligations.AluAddRule := fun a b =>
  ⟨by rw [alu_add_result, BitVec.toNat_add], alu_add_zero_iff_sum a b, alu_add_zero_iff a b⟩

/-- Settles O12: each part is read off the operation's equation; an exclusive or is zero for equal operands only, and
the same operand twice cancels. -/
theorem aluPassLogicAndZeroRules : Obligations.AluPassLogicAndZeroRules := by
  intro a b
  have zero_iff_toNat (x : Byte) : (x == 0#8) = true ↔ x.toNat = 0 := by
    rw [beq_iff_eq, BitVec.toNat_eq]
    rfl
  refine ⟨rfl, zero_iff_toNat a, rfl, zero_iff_toNat b, fun k _ => ?_, beq_iff_eq, fun k _ => ?_, beq_iff_eq, ?_, ?_,
    rfl, rfl⟩
  · rw [alu_and, BitVec.getLsbD_and]
  · rw [alu_xor, BitVec.getLsbD_xor]
  · rw [alu_xor, beq_iff_eq, BitVec.xor_eq_zero_iff]
  · rw [alu_xor, alu_xor, BitVec.xor_assoc, BitVec.xor_self, BitVec.xor_zero]

end Sys2Proof.Machine
end

section
/-! The statements about the stack (`42_stack.md`): the three operations slot by slot, and what four of one kind leave. -/

namespace Sys2Proof.Machine

/-- Settles O14: each operation's equation on the four slots. -/
theorem stackOperationsShift : Obligations.StackOperationsShift := fun _ _ _ _ _ => ⟨rfl, rfl, rfl⟩

/-- The stack is four deep: four pushes replace all of it, whatever it held (`42_stack.md` R150, R151). -/
theorem Stack.push_four (k : Stack) (a b c d : Byte) : (((k.push a).push b).push c).push d = ⟨d, c, b, a⟩ := rfl

/-- Each pop fills slot 3 with zero, so four pops leave zeros only (`42_stack.md` R152). -/
theorem Stack.pop_four (k : Stack) : k.pop.2.pop.2.pop.2.pop.2 = ⟨0#8, 0#8, 0#8, 0#8⟩ := rfl

/-- Settles O15: of five pushes the last four replace what the first one left, and a fifth pop finds the zero fill of the
four before it. -/
theorem fifthPushLosesTheOldest : Obligations.FifthPushLosesTheOldest := by
  refine ⟨fun k a b c d e => (k.push a).push_four b c d e, fun k => ⟨rfl, rfl, rfl, rfl, k.pop_four, ?_⟩⟩
  rw [k.pop_four, Stack.top]

end Sys2Proof.Machine
end

section
/-! SUPPORT. The microcoded cycle said once (`43_execution_cycle.md` R160): its three write steps one by one, then the
cycle as a commit of one next-pc value over one state of writes, in both step orders. -/

namespace Sys2Proof.Machine

variable (s : State)

/-! Steps 5, 6 and 8: each writes its own part of the state only. -/

@[simp] theorem writeBack_pc (b : Bool) (d : RegName) (v : Byte) : (writeBack b d v s).pc = s.pc := by
  cases b <;> simp
@[simp] theorem writeBack_stack (b : Bool) (d : RegName) (v : Byte) : (writeBack b d v s).stack = s.stack := by
  cases b <;> simp
@[simp] theorem writeBack_output (b : Bool) (d : RegName) (v : Byte) : (writeBack b d v s).output = s.output := by
  cases b <;> simp
@[simp] theorem writeBack_input (b : Bool) (d : RegName) (v : Byte) : (writeBack b d v s).input = s.input := by
  cases b <;> simp
@[simp] theorem writeBack_inputs (b : Bool) (d : RegName) (v : Byte) : (writeBack b d v s).inputs = s.inputs := by
  cases b <;> simp
@[simp] theorem writeBack_prog (b : Bool) (d : RegName) (v : Byte) : (writeBack b d v s).prog = s.prog := by
  cases b <;> simp
@[simp] theorem writeBack_status (b : Bool) (d : RegName) (v : Byte) : (writeBack b d v s).status = s.status := by
  cases b <;> simp

/-- The write-back reaches the register DEST names when RegWr asks for it (`10_state.md` R23). -/
@[simp] theorem readReg_writeBack (b : Bool) (d r : RegName) (v : Byte) :
    (writeBack b d v s).readReg r = if b = true ∧ r = d then v else s.readReg r := by
  cases b with
  | false => simp
  | true =>
    by_cases hr : r = d
    · simp [hr]
    · simp [hr, State.readReg_writeReg_other]

@[simp] theorem latchOutput_pc (b : Bool) (v : Byte) : (latchOutput b v s).pc = s.pc := by cases b <;> rfl
@[simp] theorem latchOutput_stack (b : Bool) (v : Byte) : (latchOutput b v s).stack = s.stack := by cases b <;> rfl
@[simp] theorem latchOutput_input (b : Bool) (v : Byte) : (latchOutput b v s).input = s.input := by cases b <;> rfl
@[simp] theorem latchOutput_inputs (b : Bool) (v : Byte) : (latchOutput b v s).inputs = s.inputs := by cases b <;> rfl
@[simp] theorem latchOutput_prog (b : Bool) (v : Byte) : (latchOutput b v s).prog = s.prog := by cases b <;> rfl
@[simp] theorem latchOutput_status (b : Bool) (v : Byte) : (latchOutput b v s).status = s.status := by cases b <;> rfl
@[simp] theorem latchOutput_output (b : Bool) (v : Byte) :
    (latchOutput b v s).output = if b then v else s.output := by cases b <;> rfl
@[simp] theorem readReg_latchOutput (b : Bool) (v : Byte) (r : RegName) :
    (latchOutput b v s).readReg r = s.readReg r := by cases b <;> simp

@[simp] theorem applyStackOp_pc (op : StackOp) : (applyStackOp op s).pc = s.pc := by cases op <;> rfl
@[simp] theorem applyStackOp_output (op : StackOp) : (applyStackOp op s).output = s.output := by cases op <;> rfl
@[simp] theorem applyStackOp_input (op : StackOp) : (applyStackOp op s).input = s.input := by cases op <;> rfl
@[simp] theorem applyStackOp_inputs (op : StackOp) : (applyStackOp op s).inputs = s.inputs := by cases op <;> rfl
@[simp] theorem applyStackOp_prog (op : StackOp) : (applyStackOp op s).prog = s.prog := by cases op <;> rfl
@[simp] theorem applyStackOp_status (op : StackOp) : (applyStackOp op s).status = s.status := by cases op <;> rfl
@[simp] theorem readReg_applyStackOp (op : StackOp) (r : RegName) :
    (applyStackOp op s).readReg r = s.readReg r := by cases op <;> simp

/-- PC+1 is read off the pc alone (`10_state.md` R26). -/
theorem State.pcPlus1_congr {s t : State} (h : t.pc = s.pc) : t.pcPlus1 = s.pcPlus1 := by
  rw [State.pcPlus1, State.pcPlus1, h]

/-! The cycle of one control word: what the ALU answers, the next-pc value and the writes. -/

/-- Steps 3 and 4: the ALU's answer on the selected operands (`43_execution_cycle.md` R163). -/
def cycleAlu (cw : ControlWord) (d : RegName) (x : Byte) (s : State) : AluOut :=
  alu cw.aluOp (operandA x) (operandB cw.aluSrc d s)

/-- The next-pc value, before any range rule (`43_execution_cycle.md` R170). -/
def cycleNext (cw : ControlWord) (d : RegName) (x : Byte) (s : State) : Nat :=
  nextPc cw.addrSrc s.pcPlus1 x s.stack.top (cycleAlu cw d x s).zero

/-- The state after the register, OUTPUT and stack writes, the pc still the old one. -/
def cycleWrites (cw : ControlWord) (d : RegName) (x : Byte) (s : State) : State :=
  applyStackOp cw.stackOp
    (latchOutput cw.outLatch (cycleAlu cw d x s).result (writeBack cw.regWr d (cycleAlu cw d x s).result s))

variable (c : Config) (cw : ControlWord) (d : RegName) (x : Byte)

@[simp] theorem cycleWrites_pc : (cycleWrites cw d x s).pc = s.pc := by simp [cycleWrites]
@[simp] theorem cycleWrites_input : (cycleWrites cw d x s).input = s.input := by simp [cycleWrites]
@[simp] theorem cycleWrites_inputs : (cycleWrites cw d x s).inputs = s.inputs := by simp [cycleWrites]
@[simp] theorem cycleWrites_prog : (cycleWrites cw d x s).prog = s.prog := by simp [cycleWrites]
@[simp] theorem cycleWrites_status : (cycleWrites cw d x s).status = s.status := by simp [cycleWrites]
@[simp] theorem cycleWrites_output :
    (cycleWrites cw d x s).output = if cw.outLatch then (cycleAlu cw d x s).result else s.output := by
  simp [cycleWrites]
@[simp] theorem readReg_cycleWrites (r : RegName) :
    (cycleWrites cw d x s).readReg r =
      if cw.regWr = true ∧ r = d then (cycleAlu cw d x s).result else s.readReg r := by
  simp [cycleWrites]

/-- The write-back and the OUTPUT latch leave the stack operation's pc and stack alone. -/
theorem cycleWrites_stack : (cycleWrites cw d x s).stack = (applyStackOp cw.stackOp s).stack := by
  rw [cycleWrites]
  cases cw.stackOp <;> simp [State.returnAddress, State.pcPlus1]

theorem microcycle_eq_commit :
    microcycle c cw d x s = commit c.pcRangePolicy (cycleNext cw d x s) (cycleWrites cw d x s) := rfl

/-- The source's order reads the top of the stack before step 8 writes it, and no step before the commit writes the pc
(`90_conflicts.md` C7). -/
theorem microcycleDocOrder_eq_commit :
    microcycleDocOrder c cw d x s = commit c.pcRangePolicy (cycleNext cw d x s) (cycleWrites cw d x s) := by
  have hpc : (cycleWrites cw d x s).pcPlus1 = s.pcPlus1 := State.pcPlus1_congr (cycleWrites_pc s cw d x)
  have htop : (latchOutput cw.outLatch (cycleAlu cw d x s).result
      (writeBack cw.regWr d (cycleAlu cw d x s).result s)).stack.top = s.stack.top := by simp
  rw [cycleNext, ← hpc, ← htop]
  rfl

end Sys2Proof.Machine
end

section
/-! SUPPORT. What a whole cycle of the microcoded engine can do under a configuration, said once: forward from its
control word, and the inversion of a completed cycle. With it, each instruction rule as the cycle of its own control word. -/

namespace Sys2Proof.Machine

/-- A running core whose fetched word has the control word `cw` and the fields `d` and `x` (`30_encoding.md` R71,
`40_control_decoder.md` R100). -/
structure RunsControl (c : Config) (s : State) (cw : ControlWord) (d : RegName) (x : Byte) : Prop where
  running : s.status = .running
  control : controlOf c (opcodeField (orderWord c.wordBitOrder s.fetch)) = some cw
  dest : d = RegName.ofBit (destField (orderWord c.wordBitOrder s.fetch))
  data : x = dataField (orderWord c.wordBitOrder s.fetch)

/-- Such a core's cycle commits the next-pc value of its control word over that word's writes. -/
theorem RunsControl.cycle_eq {c : Config} {s : State} {cw : ControlWord} {d : RegName} {x : Byte}
    (h : RunsControl c s cw d x) :
    cycle c s = onNext State.envDrive (commit c.pcRangePolicy (cycleNext cw d x s) (cycleWrites cw d x s)) := by
  obtain ⟨hs, hcw, rfl, rfl⟩ := h
  simp only [cycle, hs, hcw, microcycle_eq_commit]

/-- The decoder does not look at the range policy. -/
theorem RunsControl.withPolicy {c : Config} {s : State} {cw : ControlWord} {d : RegName} {x : Byte}
    (h : RunsControl c s cw d x) (p : PcRangePolicy) : RunsControl { c with pcRangePolicy := p } s cw d x :=
  ⟨h.running, h.control, h.dest, h.data⟩

/-- The mnemonic of stage 1 gives the control word of stage 2. -/
theorem RunsControl.of_stage1 {c : Config} {s : State} {m : Mnemonic} (hs : s.status = .running)
    (hm : stage1 c (opcodeField (orderWord c.wordBitOrder s.fetch)) = some m) :
    RunsControl c s (stage2 m) (RegName.ofBit (destField (orderWord c.wordBitOrder s.fetch)))
      (dataField (orderWord c.wordBitOrder s.fetch)) :=
  ⟨hs, by rw [controlOf, hm, Option.map_some], rfl, rfl⟩

/-- A faulted core raises its fault again, whatever the configuration (`60_exceptions.md` R224). -/
theorem cycle_of_faulted {c : Config} {s : State} {f : Fault} (hs : s.status = .faulted f) : cycle c s = .fault f := by
  simp only [cycle, hs, raise]

theorem runCycle_of_faulted {run : Instr → State → Host.Outcome State Fault Refusal} {s : State} {f : Fault}
    (hs : s.status = .faulted f) : runCycle run s = .fault f := by
  simp only [runCycle, hs, raise]

/-- A loaded core that was not reset does not run (`70_reset_and_hazards.md` R254, D8). -/
theorem cycle_of_awaitingReset {c : Config} {s : State} (hs : s.status = .awaitingReset) :
    cycle c s = .refused .loadWithoutReset := by
  simp only [cycle, hs]

theorem runCycle_of_awaitingReset {run : Instr → State → Host.Outcome State Fault Refusal} {s : State}
    (hs : s.status = .awaitingReset) : runCycle run s = .refused .loadWithoutReset := by
  simp only [runCycle, hs]

/-- A running core's cycle is an undefined opcode's fault or the cycle of a control word. -/
theorem cycle_cases (c : Config) {s : State} (hs : s.status = .running) :
    cycle c s = .fault (.invalidOpcode s.pc s.fetch) ∨ ∃ cw d x, RunsControl c s cw d x := by
  cases hm : stage1 c (opcodeField (orderWord c.wordBitOrder s.fetch)) with
  | none => exact .inl (cycle_of_stage1_eq_none hs hm)
  | some m => exact .inr ⟨_, _, _, .of_stage1 hs hm⟩

/-- The inversion of a completed cycle: the commit of a control word's cycle completed. -/
theorem cycle_eq_next {c : Config} {s t : State} (h : cycle c s = .next t) :
    ∃ cw d x u, RunsControl c s cw d x ∧
      commit c.pcRangePolicy (cycleNext cw d x s) (cycleWrites cw d x s) = .next u ∧ t = u.envDrive := by
  cases hs : s.status with
  | faulted f => simp [cycle_of_faulted hs] at h
  | awaitingReset => simp [cycle_of_awaitingReset hs] at h
  | running =>
    rcases cycle_cases c hs with hf | ⟨cw, d, x, hrun⟩
    · simp [hf] at h
    · rw [hrun.cycle_eq] at h
      obtain ⟨u, hu, rfl⟩ := onNext_eq_next h
      exact ⟨cw, d, x, u, hrun, hu, rfl⟩

/-! The instruction rules. -/

/-- The AddrSrc of each row chooses the instruction's next address (`40_control_decoder.md` R101 to R113). -/
theorem nextAddress_ofFields (m : Mnemonic) (d : RegName) (x : Byte) (s : State) :
    nextAddress (Instr.ofFields m d x) s = cycleNext (stage2 m) d x s := by
  cases m with
  | bz =>
    cases d <;>
      simp [Instr.ofFields, nextAddress, cycleNext, cycleAlu, stage2, nextPc, operandB, State.readReg, State.pcPlus1]
  | _ => rfl

/-- The other fields of each row make the instruction's writes. -/
theorem instrWrites_ofFields (m : Mnemonic) (d : RegName) (x : Byte) (s : State) :
    instrWrites (Instr.ofFields m d x) s = cycleWrites (stage2 m) d x s := by
  cases m <;> rfl

/-- Each instruction rule is the microcoded cycle of its control word. -/
theorem exec_ofFields (m : Mnemonic) (d : RegName) (x : Byte) (s : State) :
    exec (Instr.ofFields m d x) s = microcycle Config.machine (stage2 m) d x s := by
  rw [exec_eq_finish, nextAddress_ofFields, instrWrites_ofFields, microcycle_eq_commit, finish]

/-- A running core runs the meaning of the instruction it decodes (`43_execution_cycle.md` R160, R162). -/
theorem step_of_decode_eq_ok {s : State} {i : Instr} (hs : s.status = .running) (hi : decode s.fetch = .ok i) :
    step s = onNext State.envDrive (exec i s) := by
  rw [step, runCycle_running hs, hi]

/-! The commit of a value under the policies this model's step does not use (D4; log entry 10). -/

/-- A commit that completes under the fault policy is the same under every policy. -/
theorem commit_of_commit_fault_eq_next {n : Nat} {t u : State} (h : commit .fault n t = .next u) (p : PcRangePolicy) :
    commit p n t = .next u := by
  obtain ⟨hn, rfl⟩ := finish_eq_next h
  exact commit_of_le hn

/-- The late fault's mark, written with the kept pc. -/
theorem State.setStatus_eq_of_pc {t : State} {a : Addr} (h : t.pc = a) (m : Status) :
    t.setStatus m = { t with pc := a, status := m } := by
  subst h
  rfl

/-- A pc written with the kept status. -/
theorem State.setPc_eq_of_status {t : State} {m : Status} (h : t.status = m) (a : Addr) :
    t.setPc a = { t with pc := a, status := m } := by
  subst h
  rfl

/-- Above 63, the late fault commits the writes, keeps the pc and leaves the mark. -/
theorem RunsControl.cycle_faultLate_of_gt {c : Config} {s : State} {cw : ControlWord} {d : RegName} {x : Byte}
    (h : RunsControl c s cw d x) (hgt : 63 < cycleNext cw d x s) (hp : c.pcRangePolicy = .faultLate) :
    cycle c s = .next (State.envDrive { cycleWrites cw d x s with
      pc := s.pc, status := .faulted (.pcOutOfRange s.pc (cycleNext cw d x s)) }) := by
  rw [h.cycle_eq, hp, commit_faultLate_of_gt hgt, onNext_next, cycleWrites_pc,
    State.setStatus_eq_of_pc (cycleWrites_pc s cw d x)]

/-- A completed late-fault cycle leaves a running core, or its value was above 63 and the next cycle raises that. -/
theorem status_of_cycle_faultLate {c : Config} {s t : State} (hp : c.pcRangePolicy = .faultLate)
    (h : cycle c s = .next t) :
    t.status = .running ∨ ∃ n, 63 < n ∧ t.pc = s.pc ∧ t.status = .faulted (.pcOutOfRange s.pc n) ∧
      cycle c t = .fault (.pcOutOfRange s.pc n) := by
  obtain ⟨cw, d, x, u, hrun, hu, rfl⟩ := cycle_eq_next h
  rcases Nat.lt_or_ge 63 (cycleNext cw d x s) with hgt | hle
  · rw [hrun.cycle_faultLate_of_gt hgt hp] at h
    rw [← Host.Outcome.next.inj h]
    exact .inr ⟨_, hgt, State.envDrive_pc _, State.envDrive_status _, cycle_of_faulted (State.envDrive_status _)⟩
  · rw [commit_of_le hle] at hu
    rw [← Host.Outcome.next.inj hu, State.envDrive_status, State.setPc_status, cycleWrites_status]
    exact .inl hrun.running

/-- Wrapping takes the next-pc value modulo 64, in range or not. -/
theorem RunsControl.cycle_wrap {c : Config} {s : State} {cw : ControlWord} {d : RegName} {x : Byte}
    (h : RunsControl c s cw d x) (hp : c.pcRangePolicy = .wrap) :
    cycle c s = .next (State.envDrive { cycleWrites cw d x s with
      pc := BitVec.ofNat 6 (cycleNext cw d x s % 64), status := .running }) := by
  have hmod (n : Nat) : BitVec.ofNat 6 (n % 64) = BitVec.ofNat 6 n := BitVec.eq_of_toNat_eq (by simp)
  rw [h.cycle_eq, hp, commit_wrap, onNext_next,
    State.setPc_eq_of_status ((cycleWrites_status s cw d x).trans h.running), hmod]

/-- Wrapping leaves only an undefined opcode to fault. -/
theorem cycle_wrap_ne_pcOutOfRange {c : Config} {s : State} (hp : c.pcRangePolicy = .wrap) (hs : s.status = .running)
    (p : Addr) (n : Nat) : cycle c s ≠ .fault (.pcOutOfRange p n) := by
  rcases cycle_cases c hs with hf | ⟨cw, d, x, hrun⟩
  · simp [hf]
  · simp [hrun.cycle_wrap hp]

end Sys2Proof.Machine
end

section
/-! The statements about the cycle (`43_execution_cycle.md`): a step as the decoded instruction and as the microcoded
cycle, the two step orders, the next-pc multiplexer, and the policies for a next pc above 63. -/

namespace Sys2Proof.Machine

/-- Settles O34: with no fault at decoding, the step runs the instruction built from the word's fields, which is the
cycle of the control word stage 2 gives its mnemonic. -/
theorem stepIsTheMicrocodedCycle : Obligations.StepIsTheMicrocodedCycle := by
  intro s
  cases hs : s.status with
  | faulted f => rw [cycle_of_faulted hs, step, runCycle_of_faulted hs]
  | awaitingReset => rw [cycle_of_awaitingReset hs, step, runCycle_of_awaitingReset hs]
  | running =>
    cases hm : stage1 Config.machine (opcodeField s.fetch) with
    | none => rw [cycle_of_stage1_eq_none hs hm, step_of_decode_eq_error hs (decodeWith_of_stage1_eq_none hm)]
    | some m =>
      rw [(RunsControl.of_stage1 hs hm).cycle_eq, step_of_decode_eq_ok hs (decodeWith_of_stage1_eq_some hm),
        exec_ofFields, microcycle_eq_commit]

/-- Settles O35: in both orders the cycle commits one value over the same writes. -/
theorem sourceStepOrderAgrees : Obligations.SourceStepOrderAgrees := by
  intro c cw d x s
  rw [microcycleDocOrder_eq_commit, microcycle_eq_commit]

/-- Settles O36: only the commit looks at the policy, and one that completes under the fault policy had a value in
range. -/
theorem faultPolicyRefinesEveryPolicy : Obligations.FaultPolicyRefinesEveryPolicy := by
  intro c p s t hp h
  obtain ⟨cw, d, x, u, hrun, hu, rfl⟩ := cycle_eq_next h
  rw [hp] at hu
  rw [(hrun.withPolicy p).cycle_eq, commit_of_commit_fault_eq_next hu p, onNext_next]

/-- Settles O37: above 63 both policies commit the control word's writes; a completed late-fault cycle leaves a running
core or the mark of such a value, and wrapping has no value out of range. -/
theorem otherRangePolicies : Obligations.OtherRangePolicies := by
  refine ⟨?_, fun c s t => status_of_cycle_faultLate, fun c s p n hp hs => cycle_wrap_ne_pcOutOfRange hp hs p n⟩
  rintro c s cw _ d x _ _ hs rfl hcw hd hx rfl rfl hgt
  have hrun : RunsControl c s cw d x := ⟨hs, hcw, hd, hx⟩
  refine ⟨cycleWrites cw d x s, readReg_cycleWrites s cw d x, cycleWrites_output s cw d x, fun hpush => ?_,
    fun hpop => ?_, fun hhold => ?_, cycleWrites_input s cw d x, cycleWrites_inputs s cw d x,
    cycleWrites_prog s cw d x,
    fun hp => ⟨hrun.cycle_faultLate_of_gt hgt hp, cycle_of_faulted (State.envDrive_status _)⟩, hrun.cycle_wrap⟩
  · rw [cycleWrites_stack, hpush]
    rfl
  · rw [cycleWrites_stack, hpop]
    rfl
  · rw [cycleWrites_stack, hhold, applyStackOp_hold]

/-- Settles O18: each AddrSrc's equation. -/
theorem nextPcMultiplexer : Obligations.NextPcMultiplexer :=
  fun _ _ _ _ => ⟨rfl, rfl, rfl, rfl, rfl⟩

/-- Settles O33: the step is exec of the decoded instruction under the environment's drive. -/
theorem stepRunsTheDecodedInstruction : Obligations.StepRunsTheDecodedInstruction := by
  intro s i hs hi
  rw [step_of_decode_eq_ok hs hi]
  constructor
  · intro t ht
    rw [ht, onNext_next]
  · intro f hf
    rw [hf, onNext_fault]

end Sys2Proof.Machine
end

section
/-! SUPPORT. The meaning of an instruction by its next address, in range and out of range (`43_execution_cycle.md` R171,
R172), and the next address of BZ as a test of the register DEST names (R192). -/

namespace Sys2Proof.Machine

theorem exec_of_nextAddress_le {i : Instr} {s : State} (h : nextAddress i s ≤ 63) :
    exec i s = .next ((instrWrites i s).setPc (BitVec.ofNat 6 (nextAddress i s))) := by
  rw [exec_eq_finish, finish_of_le h]

theorem exec_of_nextAddress_gt {i : Instr} {s : State} (h : 63 < nextAddress i s) :
    exec i s = .fault (.pcOutOfRange s.pc (nextAddress i s)) := by
  rw [exec_eq_finish, finish_of_gt h, instrWrites_pc]

theorem nextAddress_bz_of_zero {d : RegName} {s : State} (x : Byte) (h : s.readReg d = 0#8) :
    nextAddress (.bz d x) s = x.toNat := by
  cases d <;> exact if_pos h

theorem nextAddress_bz_of_nonzero {d : RegName} {s : State} (x : Byte) (h : s.readReg d ≠ 0#8) :
    nextAddress (.bz d x) s = s.pc.toNat + 1 := by
  cases d <;> exact if_neg h

/-- RET goes to the top of the stack and takes it off, whatever its fields hold (`44_control_transfer.md` R191). -/
theorem exec_ret_of_le {s : State} (d : RegName) (x : Byte) (h : s.stack.slot0.toNat ≤ 63) :
    exec (.ret d x) s = .next ((s.setStack s.stack.pop.2).setPc (BitVec.ofNat 6 s.stack.slot0.toNat)) :=
  exec_of_nextAddress_le (i := .ret d x) h

/-- RET faults for a top above 63 (`44_control_transfer.md` R191, Faults). -/
theorem exec_ret_of_gt {s : State} (d : RegName) (x : Byte) (h : 63 < s.stack.slot0.toNat) :
    exec (.ret d x) s = .fault (.pcOutOfRange s.pc s.stack.slot0.toNat) :=
  exec_of_nextAddress_gt (i := .ret d x) h

/-- CALL pushes pc + 1 and goes to DATA (`44_control_transfer.md` R190). -/
theorem exec_call_of_le {x : Byte} (d : RegName) (s : State) (h : x.toNat ≤ 63) :
    exec (.call d x) s =
      .next ((s.setStack (s.stack.push s.returnAddress)).setPc (BitVec.ofNat 6 x.toNat)) :=
  exec_of_nextAddress_le (i := .call d x) h

end Sys2Proof.Machine
end

section
/-! The statements about control transfer (`44_control_transfer.md`): CALL, RET, BZ and B one by one, their frame, and
the return from a call. -/

namespace Sys2Proof.Machine

/-- Settles O32: none of the four is among the instructions that write a register or OUTPUT, and BZ and B are not among
those that write the stack. -/
theorem controlTransferFrame : Obligations.ControlTransferFrame := by
  intro i s t hi ht
  obtain ⟨-, rfl⟩ := exec_eq_next ht
  have hreg : i.mnemonic ∉ [.add, .sub, .and, .ld, .inp, .xor, .inXor] :=
    List.disjoint_left.1 (by simp) hi
  have hout : i.mnemonic ∉ [.out, .dout] := List.disjoint_left.1 (by simp) hi
  refine ⟨fun e => ?_, ?_, ?_, ?_, ?_, fun a => ?_, fun hbranch => ?_⟩
  · rw [State.readReg_setPc, instrWrites_readReg_of_not_dest s fun h => hreg h.2]
  · rw [State.setPc_output, instrWrites_output_of_notMem s hout]
  · rw [State.setPc_input, instrWrites_input]
  · rw [State.setPc_inputs, instrWrites_inputs]
  · rw [State.setPc_status, instrWrites_status]
  · rw [State.setPc_prog, instrWrites_prog]
  · have hstack : i.mnemonic ∉ [.call, .ret] := List.disjoint_left.1 (by simp) hbranch
    rw [State.setPc_stack, instrWrites_stack_of_notMem s hstack]

/-- Settles O47: the invariant bounds the top by 64, so a top other than 64 is in range. -/
theorem retFaultsOnlyForATopOfSixtyFour : Obligations.RetFaultsOnlyForATopOfSixtyFour := by
  intro s d x hinv
  constructor
  · intro htop
    have hval : s.stack.slot0.toNat = 64 := by rw [htop]; rfl
    rw [exec_ret_of_gt d x (by omega), hval]
  · intro htop
    obtain ⟨hle, -⟩ := s.stack.bounded_iff.1 (s.inv_iff.1 hinv).2
    have hne : s.stack.slot0.toNat ≠ 64 := fun h => htop (BitVec.eq_of_toNat_eq h)
    exact ⟨_, exec_ret_of_le d x (by omega)⟩

/-- Settles O48: the top a CALL leaves is pc + 1, in range below 63 and 64 at 63. -/
theorem retUndoesCall : Obligations.RetUndoesCall := by
  intro d e x y s hx
  refine ⟨_, exec_call_of_le d s hx, fun w hw => ?_⟩
  change w.stack = s.stack.push s.returnAddress at hw
  have htop : w.stack.slot0.toNat = s.pc.toNat + 1 := by
    rw [hw]
    exact s.returnAddress_toNat
  constructor
  · intro hpc
    refine ⟨_, exec_ret_of_le e y (by omega), ?_, ?_⟩
    · rw [State.setPc_pc, toNat_ofNat_six (by omega), htop]
    · rw [State.setPc_stack, State.setStack_stack, hw]
      rfl
  · intro hpc
    rw [exec_ret_of_gt e y (by omega), htop, hpc]

/-- Settles O19: DATA in range is the next address. -/
theorem callPushesReturnAddressAndJumps : Obligations.CallPushesReturnAddressAndJumps :=
  fun d _ s hx => exec_call_of_le d s hx

/-- Settles O20: the top in range is the next address. -/
theorem retPopsAndJumpsToTheOldTop : Obligations.RetPopsAndJumpsToTheOldTop :=
  fun d x _ htop => exec_ret_of_le d x htop

/-- Settles O21: BZ writes nothing, and its next address is DATA for a zero register and pc + 1 for any other. -/
theorem bzBranchesOnAZeroRegister : Obligations.BzBranchesOnAZeroRegister := by
  intro d x s
  constructor
  · intro hzero hx
    have hnext := nextAddress_bz_of_zero x hzero
    rw [exec_of_nextAddress_le (by omega), hnext]
    rfl
  · intro hnonzero hpc
    have hnext := nextAddress_bz_of_nonzero x hnonzero
    rw [exec_of_nextAddress_le (by omega), hnext]
    rfl

/-- Settles O22: B writes nothing, and DATA in range is its next address. -/
theorem bJumpsToData : Obligations.BJumpsToData :=
  fun d x _ hx => exec_of_nextAddress_le (i := .b d x) hx

end Sys2Proof.Machine
end

section
/-! SUPPORT. An instruction that does not branch goes to pc + 1 (`10_state.md` R27), so below address 63 it completes with
its writes; and the difference of bytes as an integer (`45_arithmetic_logic.md` R201). -/

namespace Sys2Proof.Machine

theorem nextAddress_of_not_branch {i : Instr} (s : State) (h : i.mnemonic ∉ [.call, .ret, .bz, .b]) :
    nextAddress i s = s.pc.toNat + 1 := by
  cases i with
  | call | ret | bz | b => simp [Instr.mnemonic] at h
  | _ => rfl

theorem exec_of_not_branch {i : Instr} {s : State} (h : i.mnemonic ∉ [.call, .ret, .bz, .b]) (hpc : s.pc.toNat < 63) :
    exec i s = .next ((instrWrites i s).setPc (BitVec.ofNat 6 (s.pc.toNat + 1))) := by
  have hnext := nextAddress_of_not_branch s h
  rw [exec_of_nextAddress_le (by omega), hnext]

/-- The difference of two bytes is the integer difference modulo 256, in the same direction. -/
theorem toNat_sub_eq_emod (a b : Byte) : ((a - b).toNat : Int) = ((a.toNat : Int) - (b.toNat : Int)) % 256 := by
  have ha := a.isLt
  have hb := b.isLt
  rw [BitVec.toNat_sub]
  omega

end Sys2Proof.Machine
end

section
/-! The statements about arithmetic and logic (`45_arithmetic_logic.md`): ADD, SUB, AND, XOR and LD one by one, and the
frame of the seven instructions that write a register. -/

namespace Sys2Proof.Machine

/-- Settles O23: a sum of bytes is the sum of their values, cut to 8 bits. -/
theorem addWritesTheWrappedSum : Obligations.AddWritesTheWrappedSum := by
  intro d x s hpc
  have hsum : BitVec.ofNat 8 ((x.toNat + (s.readReg d).toNat) % 256) = (alu .add x (s.readReg d)).result := by
    rw [alu_add_result]
    exact BitVec.eq_of_toNat_eq (by simp)
  rw [hsum]
  exact exec_of_not_branch (i := .add d x) (by simp [Instr.mnemonic]) hpc

/-- Settles O24: the byte written is the difference of bytes with DATA on the left. -/
theorem subWritesDataMinusRegister : Obligations.SubWritesDataMinusRegister := by
  intro d x s hpc
  refine ⟨_, exec_of_not_branch (i := .sub d x) (by simp [Instr.mnemonic]) hpc, ?_⟩
  rw [alu_sub_result, toNat_sub_eq_emod]

/-- Settles O25: each bit of a positional result is the operation on the two bits. -/
theorem andXorWriteThePositionalResult : Obligations.AndXorWriteThePositionalResult := by
  intro d x s hpc
  constructor
  · refine ⟨_, exec_of_not_branch (i := .and d x) (by simp [Instr.mnemonic]) hpc, fun k => ?_⟩
    rw [alu_and, BitVec.getLsbD_and]
  · refine ⟨_, exec_of_not_branch (i := .xor d x) (by simp [Instr.mnemonic]) hpc, fun k => ?_⟩
    rw [alu_xor, BitVec.getLsbD_xor]

/-- Settles O26: DATA is what LD writes. -/
theorem ldWritesData : Obligations.LdWritesData :=
  fun d x _ hpc => exec_of_not_branch (i := .ld d x) (by simp [Instr.mnemonic]) hpc

/-- Settles O30: none of the seven branches, or is among the instructions that write the stack or OUTPUT, and each writes
only the register DEST names. -/
theorem registerInstructionsFrame : Obligations.RegisterInstructionsFrame := by
  intro i s t hi ht
  obtain ⟨hle, rfl⟩ := exec_eq_next ht
  have hbranch : i.mnemonic ∉ [.call, .ret, .bz, .b] := List.disjoint_left.1 (by simp) hi
  have hstack : i.mnemonic ∉ [.call, .ret] := List.disjoint_left.1 (by simp) hi
  have hout : i.mnemonic ∉ [.out, .dout] := List.disjoint_left.1 (by simp) hi
  refine ⟨fun e he => ?_, ?_, ?_, ?_, ?_, ?_, fun a => ?_, ?_⟩
  · rw [State.readReg_setPc, instrWrites_readReg_of_not_dest s fun h => he h.1.symm]
  · rw [State.setPc_stack, instrWrites_stack_of_notMem s hstack]
  · rw [State.setPc_output, instrWrites_output_of_notMem s hout]
  · rw [State.setPc_input, instrWrites_input]
  · rw [State.setPc_inputs, instrWrites_inputs]
  · rw [State.setPc_status, instrWrites_status]
  · rw [State.setPc_prog, instrWrites_prog]
  · rw [State.setPc_pc, toNat_ofNat_six hle, nextAddress_of_not_branch s hbranch]

end Sys2Proof.Machine
end

section
/-! SUPPORT. What an IN or an IN_XOR that completes leaves in its register (`46_io.md` R211, R213), and the law of
`INPUT_HIGH_ZERO` as an equation of the high nibble (`10_state.md` R34). -/

namespace Sys2Proof.Machine

theorem readReg_of_exec_inp_eq_next {d : RegName} {x : Byte} {s t : State} (h : exec (.inp d x) s = .next t) :
    t.readReg d = s.input := by
  obtain ⟨-, rfl⟩ := exec_eq_next h
  rw [State.readReg_setPc, instrWrites, State.readReg_writeReg_same]

theorem readReg_of_exec_inXor_eq_next {d : RegName} {x : Byte} {s t : State} (h : exec (.inXor d x) s = .next t) :
    t.readReg d = x ^^^ s.input := by
  obtain ⟨-, rfl⟩ := exec_eq_next h
  rw [State.readReg_setPc, instrWrites, State.readReg_writeReg_same, alu_xor]

theorem inputLawful_iff_of_inputHighZero {c : Config} (hc : c.inputHighZero = true) (v : Byte) :
    inputLawful c v = true ↔ v.extractLsb' 4 4 = 0#4 := by
  simp [inputLawful, hc]

end Sys2Proof.Machine
end

section
/-! The statements about input and output (`46_io.md`): OUT, DOUT, IN and IN_XOR one by one, the frame of OUT and DOUT,
and the high nibble under `INPUT_HIGH_ZERO`. -/

namespace Sys2Proof.Machine

/-- Settles O28: IN writes INPUT itself, and each bit of IN_XOR's byte is the exclusive or of the two bits. -/
theorem inInXorReadTheInputPort : Obligations.InInXorReadTheInputPort := by
  intro d x s hpc
  constructor
  · exact exec_of_not_branch (i := .inp d x) (by simp [Instr.mnemonic]) hpc
  · refine ⟨_, exec_of_not_branch (i := .inXor d x) (by simp [Instr.mnemonic]) hpc, fun k => ?_⟩
    rw [alu_xor, BitVec.getLsbD_xor]

/-- Settles O31: neither of the two branches, or is among the instructions that write the stack or a register. -/
theorem outputInstructionsFrame : Obligations.OutputInstructionsFrame := by
  intro i s t hi ht
  obtain ⟨hle, rfl⟩ := exec_eq_next ht
  have hbranch : i.mnemonic ∉ [.call, .ret, .bz, .b] := List.disjoint_left.1 (by simp) hi
  have hstack : i.mnemonic ∉ [.call, .ret] := List.disjoint_left.1 (by simp) hi
  have hreg : i.mnemonic ∉ [.add, .sub, .and, .ld, .inp, .xor, .inXor] := List.disjoint_left.1 (by simp) hi
  refine ⟨fun e => ?_, ?_, ?_, ?_, ?_, fun a => ?_, ?_⟩
  · rw [State.readReg_setPc, instrWrites_readReg_of_not_dest s fun h => hreg h.2]
  · rw [State.setPc_stack, instrWrites_stack_of_notMem s hstack]
  · rw [State.setPc_input, instrWrites_input]
  · rw [State.setPc_inputs, instrWrites_inputs]
  · rw [State.setPc_status, instrWrites_status]
  · rw [State.setPc_prog, instrWrites_prog]
  · rw [State.setPc_pc, toNat_ofNat_six hle, nextAddress_of_not_branch s hbranch]

/-- Settles O58: IN leaves INPUT's high nibble, and an exclusive or with a zero nibble leaves DATA's. -/
theorem highNibbleUnderInputHighZero : Obligations.HighNibbleUnderInputHighZero := by
  intro d x s t hlaw
  have hhigh : s.input.extractLsb' 4 4 = 0#4 := (inputLawful_iff_of_inputHighZero rfl s.input).1 hlaw
  constructor
  · intro ht
    rw [readReg_of_exec_inp_eq_next ht, hhigh]
  · intro ht
    rw [readReg_of_exec_inXor_eq_next ht, BitVec.extractLsb'_xor, hhigh, BitVec.xor_zero]

/-- Settles O27: OUT writes the register DEST names to OUTPUT, DOUT writes DATA. -/
theorem outDoutLatchOutput : Obligations.OutDoutLatchOutput := fun d x _ hpc =>
  ⟨exec_of_not_branch (i := .out d x) (by simp [Instr.mnemonic]) hpc,
    exec_of_not_branch (i := .dout d x) (by simp [Instr.mnemonic]) hpc⟩

end Sys2Proof.Machine
end

section
/-! SUPPORT. When a cycle faults, said once as an equivalence (`60_exceptions.md` R220, R221, R224), that its condition does
not mention INPUT, and what the environment can do to a faulted core without a load or a reset. -/

namespace Sys2Proof.Machine

/-- A word is no instruction exactly when its OPCODE w[12:9] is above 12 (`30_encoding.md` R77; D2). -/
theorem decode_eq_error_iff (w : Word) : (∃ r, decode w = .error r) ↔ 12 < w.toNat / 512 := by
  rw [decode, decodeWith_eq_error_iff, stage1_eq_none_iff (by decide), opcodeField_toNat]
  rfl

/-- The inversion of a meaning that faults: its next address is out of range (`60_exceptions.md` R221). -/
theorem exec_eq_fault_iff {i : Instr} {s : State} {f : Fault} :
    exec i s = .fault f ↔ 63 < nextAddress i s ∧ f = .pcOutOfRange s.pc (nextAddress i s) := by
  rcases Nat.lt_or_ge 63 (nextAddress i s) with hgt | hle
  · simp [exec_of_nextAddress_gt hgt, hgt, eq_comm]
  · simp [exec_of_nextAddress_le hle, Nat.not_lt.2 hle]

/-- All the ways a cycle can fault: the mark of an earlier fault (`60_exceptions.md` R224), or in a running core a word
that is no instruction (R220) or a next address out of range (R221). -/
theorem step_eq_fault_iff {s : State} {f : Fault} :
    step s = .fault f ↔ s.status = .faulted f ∨ s.status = .running ∧
      ((12 < s.fetch.toNat / 512 ∧ f = .invalidOpcode s.pc s.fetch) ∨
      (∃ i, decode s.fetch = .ok i ∧ 63 < nextAddress i s ∧ f = .pcOutOfRange s.pc (nextAddress i s))) := by
  cases hs : s.status with
  | faulted g => simp [step, runCycle_of_faulted hs]
  | awaitingReset => simp [step, runCycle_of_awaitingReset hs]
  | running =>
    rw [← decode_eq_error_iff]
    cases hdecode : decode s.fetch with
    | error r => simp [step_of_decode_eq_error hs hdecode, eq_comm]
    | ok i => simp [step_of_decode_eq_ok hs hdecode, onNext_eq_fault, exec_eq_fault_iff]

/-- The next address is chosen among the pc, the registers, the stack and DATA: no INPUT value, present or to come, is
among them (`10_state.md` R27). -/
theorem nextAddress_withInputs (i : Instr) (s : State) (v : Byte) (vs : List Byte) :
    nextAddress i { s with input := v, inputs := vs } = nextAddress i s := by
  cases i with
  | bz d x => cases d <;> rfl
  | _ => rfl

/-! The fault mark. -/

/-- A cycle that faults leaves the mark and nothing else (`60_exceptions.md` R224, D18). -/
theorem State.act_step_of_fault {s : State} {f : Fault} (h : step s = .fault f) :
    s.act .step = some (s.setStatus (.faulted f)) := by
  simp only [State.act, h]

/-- A faulted core faults again at a cycle, which leaves it as it is; so of the two actions only an INPUT can change
it, and only its INPUT port. -/
theorem State.act_of_faulted {s t : State} {f : Fault} {e : Event} (hs : s.status = .faulted f)
    (he : e = .step ∨ ∃ v, e = .driveInput v) (h : s.act e = some t) : ∃ v, t = s.driveInput v := by
  rcases he with rfl | ⟨v, rfl⟩
  · rw [State.act_step_of_fault (runCycle_of_faulted hs), ← hs] at h
    exact ⟨s.input, (Option.some.inj h).symm⟩
  · exact ⟨v, State.act_driveInput_eq_some h⟩

/-- Any sequence of cycles and INPUT values changes only the INPUT port of a faulted core (`60_exceptions.md` R224). -/
theorem State.actAll_of_faulted {s t : State} {f : Fault} {es : List Event} (hs : s.status = .faulted f)
    (hes : ∀ e ∈ es, e = .step ∨ ∃ v, e = .driveInput v) (h : s.actAll es = some t) : ∃ v, t = s.driveInput v := by
  induction es generalizing s with
  | nil => exact ⟨s.input, (Option.some.inj h).symm⟩
  | cons e es ih =>
    obtain ⟨he, hes⟩ := List.forall_mem_cons.1 hes
    obtain ⟨u, hu, ht⟩ := Option.bind_eq_some_iff.1 h
    obtain ⟨v, rfl⟩ := State.act_of_faulted hs he hu
    obtain ⟨w, rfl⟩ := ih (s := s.driveInput v) hs hes ht
    exact ⟨w, rfl⟩

end Sys2Proof.Machine
end

section
/-! The statements about faults (`60_exceptions.md`): when a cycle faults and with what report, that a fault does not depend
on INPUT, and that its mark stays. -/

namespace Sys2Proof.Machine

/-- Settles O46: a running core holds no mark, so only its own two faults are left. -/
theorem stepFaultsExactlyWhenTheRulesSay : Obligations.StepFaultsExactlyWhenTheRulesSay := by
  intro s f hs
  simp [step_eq_fault_iff, hs]

/-- Settles O44: neither an earlier fault's mark nor the condition of a running core's fault mentions INPUT. -/
theorem faultsDoNotDependOnInput : Obligations.FaultsDoNotDependOnInput := by
  intro s v vs f h
  rw [step_eq_fault_iff] at h ⊢
  simp only [nextAddress_withInputs]
  exact h

/-- Settles O45: the first cycle leaves the mark, and after it only the INPUT port moves. -/
theorem faultMarkStaysUntilReset : Obligations.FaultMarkStaysUntilReset := by
  intro s f es t hfault hes hact
  rw [State.actAll, State.act_step_of_fault hfault, Option.bind_some] at hact
  obtain ⟨v, rfl⟩ := State.actAll_of_faulted (s.setStatus_status _) hes hact
  exact ⟨rfl, rfl, rfl, rfl, rfl, rfl, rfl, rfl⟩

end Sys2Proof.Machine
end

section
/-! SUPPORT. A launch as a reset of a loaded store, so a state with the invariant; what a reset leaves to be fetched and
reported; the end of a run as a `B` to its own address, and its step; an instruction's word as a number. -/

namespace Sys2Proof.Machine

/-! Launch and reset. -/

/-- The inversion of a launch: the program fits, and the core is in its reset state over the program's store
(`70_reset_and_hazards.md` R257). -/
theorem State.launch_eq_some {c : Config} {ws : List Word} {s t : State} (h : s.launch c ws = some t) :
    programFits ws = true ∧ t = (s.setProg (Memory.ofWords ws)).resetCore c := by
  obtain ⟨u, hload, rfl⟩ := Option.map_eq_some_iff.1 h
  obtain ⟨hfit, rfl⟩ := State.load_eq_some hload
  exact ⟨hfit, rfl⟩

/-- A launch gives the invariant from any state: the reset empties a stack that nothing was known of. -/
theorem State.inv_launch {c : Config} {ws : List Word} {s t : State} (h : s.launch c ws = some t) : t.inv = true := by
  obtain ⟨hfit, rfl⟩ := State.launch_eq_some h
  exact (State.inv_iff _).2 ⟨Memory.wf_ofWords ws hfit, Stack.bounded_zero⟩

@[simp] theorem State.faultPort_resetCore (c : Config) (s : State) : (s.resetCore c).faultPort = none := rfl
@[simp] theorem State.fetch_resetCore (c : Config) (s : State) :
    (s.resetCore c).fetch = Memory.read s.prog 0 := rfl

/-! The end of a run. -/

/-- A run has ended when a running core is at a `B` to the address it stands at (`70_reset_and_hazards.md` R260, D12). -/
theorem State.runEnded_iff (s : State) :
    s.runEnded = true ↔
      s.status = .running ∧ ∃ d x, decode s.fetch = .ok (.b d x) ∧ x.toNat = s.pc.toNat := by
  unfold State.runEnded
  split
  · next d x hs hi => simp [hs, hi]
  · next hother =>
    simp only [Bool.false_eq_true, false_iff, not_and, not_exists]
    exact fun hs d x hi => absurd hi (hother d x hs)

@[simp] theorem State.setPc_self (s : State) : s.setPc s.pc = s := rfl

/-- `B` to its own address writes nothing and comes back to the pc, so only the environment's drive is left. -/
theorem step_of_runEnded {s : State} (h : s.runEnded = true) : step s = .next s.envDrive := by
  obtain ⟨hs, d, x, hi, hx⟩ := s.runEnded_iff.1 h
  have hnext : nextAddress (.b d x) s = s.pc.toNat := hx
  have hrange : nextAddress (.b d x) s ≤ 63 := by have := s.pc.isLt; omega
  have hwrites : instrWrites (.b d x) s = s := rfl
  rw [step_of_nextAddress_le hs hi hrange, hnext, hwrites, BitVec.ofNat_toNat, BitVec.setWidth_eq, State.setPc_self]

/-! The word of an instruction. -/

/-- With the first character as bit 12 a word is OPCODE * 512 + DEST * 256 + DATA, the opcode being the mnemonic's place
in `OPMAP` (`30_encoding.md` R71, R75). -/
theorem encodeWith_toNat {c : Config} (h : c.wf = true) (ho : c.wordBitOrder = .firstIsBit12) (i : Instr) :
    (encodeWith c i).toNat = 0x200 * c.opmap.idxOf i.mnemonic + 0x100 * i.dest.toBit.toNat + i.data.toNat := by
  rw [encodeWith, ho, orderWord, joinFields_toNat, opcodeOf_toNat h, Nat.mul_comm, Nat.mul_comm _ 256]

/-- The same for this model's configuration (D1, D2). -/
theorem encode_toNat (i : Instr) :
    (encode i).toNat =
      0x200 * Config.machine.opmap.idxOf i.mnemonic + 0x100 * i.dest.toBit.toNat + i.data.toNat :=
  encodeWith_toNat (by decide) rfl i

end Sys2Proof.Machine
end

section
/-! The statements about reset, load, the states a run reaches and its end (`70_reset_and_hazards.md`), and the encodings
as numbers and as sample words. -/

namespace Sys2Proof.Machine

/-- Settles O51, by induction on how the state was reached: a launch gives the invariant and every action keeps it. -/
theorem reachableStatesHaveTheInvariant : Obligations.ReachableStatesHaveTheInvariant := by
  intro s hreach
  induction hreach with
  | launch s t ws hlaunch => exact State.inv_launch hlaunch
  | act s t e _ hact ih => exact everyActionKeepsTheInvariant s t e ih hact

/-- Settles O57: with no INPUT to come the drive changes nothing either, so the state is a fixed point of the step. -/
theorem endedRunStaysWhereItIs : Obligations.EndedRunStaysWhereItIs := by
  refine ⟨fun s hend => step_of_runEnded hend, fun k s hend hnil => ?_⟩
  have hfixed : step s = .next s := by rw [step_of_runEnded hend, s.envDrive_of_nil hnil]
  exact run_of_fixedPoint Sys2Proof.core s hfixed k

/-- Settles O52, field by field. -/
theorem resetPutsTheCoreInItsStartState : Obligations.ResetPutsTheCoreInItsStartState := fun c s =>
  ⟨s.resetCore_pc c, s.resetCore_reg0 c, s.resetCore_reg1 c, s.resetCore_stack c, s.resetCore_output c⟩

/-- Settles O53: a reset writes neither INPUT nor the Program Store, and its pc is 0. -/
theorem resetKeepsInputAndProgram : Obligations.ResetKeepsInputAndProgram := fun c s =>
  ⟨s.resetCore_input c, fun a => by rw [s.resetCore_prog c], s.faultPort_resetCore c, s.resetCore_status c,
    s.fetch_resetCore c⟩

/-- Settles O55: a load leaves the core awaiting a reset, and such a core refuses to run. -/
theorem loadAloneDoesNotRun : Obligations.LoadAloneDoesNotRun := by
  intro c ws s t hload
  obtain ⟨-, rfl⟩ := State.load_eq_some hload
  exact ⟨runCycle_of_awaitingReset rfl, rfl, rfl⟩

/-- Settles O6: each row is `encode_toNat` with the mnemonic's place in the default `OPMAP` computed. -/
theorem encodingsMatchTheInstructionRules : Obligations.EncodingsMatchTheInstructionRules := fun d x =>
  ⟨encode_toNat (.call d x), encode_toNat (.ret d x), encode_toNat (.bz d x), encode_toNat (.b d x),
    encode_toNat (.add d x), encode_toNat (.sub d x), encode_toNat (.and d x), encode_toNat (.ld d x),
    encode_toNat (.out d x), encode_toNat (.inp d x), encode_toNat (.dout d x), encode_toNat (.xor d x),
    encode_toNat (.inXor d x)⟩

/-- Settles O1: the decoder evaluated on each of the sixteen words. -/
theorem sampleWordsDecode : Obligations.SampleWordsDecode :=
  ⟨rfl, rfl, rfl, rfl, rfl, rfl, rfl, rfl, rfl, rfl, rfl, rfl, rfl, rfl, rfl, rfl⟩

end Sys2Proof.Machine
end
